-- ==== Sys2Proof/Word.lean ====
section
/-! DEFINITION. The word types of the CORE (spec/00_scope.md section 5, 10_state.md rules R10 to R17): all quantities
are unsigned. -/

namespace Sys2Proof

/-- An 8-bit quantity: a V register, a timer, a memory byte, the immediate NN. -/
abbrev Byte := BitVec 8

/-- A 16-bit quantity: I, PC, a call-stack entry, an instruction word. -/
abbrev Word := BitVec 16

/-- A 4-bit field: a register number X or Y, a row count N, a key number. -/
abbrev Nibble := BitVec 4

/-- The 12-bit address field NNN. -/
abbrev Addr12 := BitVec 12

/-- The register number of VF, which doubles as the flag (rule R11). -/
abbrev vf : Nibble := 0xF#4

end Sys2Proof
end

