-- ==== Sys2Proof/Syntax.lean ====
section
/-! DEFINITION. The 34 instructions (spec/30_encoding.md rule R53, spec/opcode_table.json), one constructor per row, with
the operand fields the row names (rules R47, R48). -/

namespace Sys2Proof

/-- An instruction. `x`, `y` are register numbers, `nn` a byte, `nnn` a 12-bit address, `n` a row count. -/
inductive Instr where
  /-- 00E0 `CLS` (R65). -/
  | cls
  /-- 00EE `RET` (R66). -/
  | ret
  /-- 1NNN `JP NNN` (R67). -/
  | jp (nnn : Addr12)
  /-- 2NNN `CALL NNN` (R68). -/
  | call (nnn : Addr12)
  /-- 3XNN `SE Vx, NN` (R69). -/
  | seImm (x : Nibble) (nn : Byte)
  /-- 4XNN `SNE Vx, NN` (R70). -/
  | sneImm (x : Nibble) (nn : Byte)
  /-- 5XY0 `SE Vx, Vy` (R71). -/
  | seReg (x y : Nibble)
  /-- 6XNN `LD Vx, NN` (R73). -/
  | ldImm (x : Nibble) (nn : Byte)
  /-- 7XNN `ADD Vx, NN` (R74). -/
  | addImm (x : Nibble) (nn : Byte)
  /-- 8XY0 `LD Vx, Vy` (R76). -/
  | ldReg (x y : Nibble)
  /-- 8XY1 `OR Vx, Vy` (R77). -/
  | orReg (x y : Nibble)
  /-- 8XY2 `AND Vx, Vy` (R78). -/
  | andReg (x y : Nibble)
  /-- 8XY3 `XOR Vx, Vy` (R79). -/
  | xorReg (x y : Nibble)
  /-- 8XY4 `ADD Vx, Vy` (R80). -/
  | addReg (x y : Nibble)
  /-- 8XY5 `SUB Vx, Vy` (R81). -/
  | subReg (x y : Nibble)
  /-- 8XY6 `SHR Vx, Vy` (R82). -/
  | shr (x y : Nibble)
  /-- 8XY7 `SUBN Vx, Vy` (R83). -/
  | subn (x y : Nibble)
  /-- 8XYE `SHL Vx, Vy` (R84). -/
  | shl (x y : Nibble)
  /-- 9XY0 `SNE Vx, Vy` (R72). -/
  | sneReg (x y : Nibble)
  /-- ANNN `LD I, NNN` (R85). -/
  | ldI (nnn : Addr12)
  /-- BNNN `JP V0, NNN` (R86): the row names both NNN and X, and X is the top nibble of NNN. -/
  | jpV0 (x : Nibble) (nnn : Addr12)
  /-- CXNN `RND Vx, NN` (R87). -/
  | rnd (x : Nibble) (nn : Byte)
  /-- DXYN `DRW Vx, Vy, N` (R89). -/
  | drw (x y n : Nibble)
  /-- EX9E `SKP Vx` (R90). -/
  | skp (x : Nibble)
  /-- EXA1 `SKNP Vx` (R91). -/
  | sknp (x : Nibble)
  /-- FX07 `LD Vx, DT` (R92). -/
  | ldVxDt (x : Nibble)
  /-- FX0A `LD Vx, K` (R93). -/
  | ldVxKey (x : Nibble)
  /-- FX15 `LD DT, Vx` (R94). -/
  | ldDtVx (x : Nibble)
  /-- FX18 `LD ST, Vx` (R95). -/
  | ldStVx (x : Nibble)
  /-- FX1E `ADD I, Vx` (R96). -/
  | addI (x : Nibble)
  /-- FX29 `LD F, Vx` (R97). -/
  | ldFont (x : Nibble)
  /-- FX33 `LD B, Vx` (R98). -/
  | ldBcd (x : Nibble)
  /-- FX55 `LD [I], Vx` (R99). -/
  | dumpRegs (x : Nibble)
  /-- FX65 `LD Vx, [I]` (R100). -/
  | loadRegs (x : Nibble)
deriving DecidableEq, Repr

end Sys2Proof
end

