-- ==== Sys2Proof/Config.lean ====
section
/-! DEFINITION. What one machine fixes (the parameters of spec/00_scope.md rule R7) and the values the spec leaves
unconstrained, as constants without a body, about whose values nothing can be proved. -/

namespace Sys2Proof

/-- The parameters of rule R7. They are held in `State` as plain data that nothing writes, so that a statement for all
states is a statement for all parameters (decisions D2, D3, D4; log 6). -/
structure Params where
  /-- `STACK_DEPTH`: the number of call-stack entries. -/
  stackDepth : Nat
  /-- `FONT_BASE`: the address of glyph 0. -/
  fontBase : Nat
  /-- `FONT_DATA[0..79]`: 16 glyphs of 5 bytes, in digit order. -/
  fontData : Vector Byte 80
deriving DecidableEq, Repr

/-- The constraints of rule R7 and decision D2 on the parameters. -/
abbrev Params.wf (p : Params) : Prop := 1 ≤ p.stackDepth ∧ p.fontBase + 80 ≤ 0x200

/-- The random byte `rand` (rules R8, R87): the `n`-th draw of CXNN, any byte. Free value, log 2. -/
opaque Config.rand (n : Nat) : Byte

/-- What a byte of memory outside the font holds after the `epoch`-th reset (rule R24, decision D7): any byte, not
assumed equal between two resets. Free value, log 3. -/
opaque Config.freeMem (epoch addr : Nat) : Byte

/-- What a call-stack entry holds after the `epoch`-th reset (rule R24, decision D7): any value. Free value, log 4. -/
opaque Config.freeStack (epoch index : Nat) : Word

end Sys2Proof
end

