-- ==== Sys2Proof/Machine/ResetValues.lean ====
section
/-! DEFINITION. The reset values of spec/10_state.md rule R24 and the default parameters of rule R7, each under its own
name. -/

namespace Sys2Proof.Machine

/-- The entry point: PC is reset to 0x200 (rules R24, R128). -/
def resetPc : Word := 0x0200#16

/-- Every V register resets to 0 (rule R24, decision D6; log 7). -/
def resetV : Vector Byte 16 := Vector.replicate 16 0x00#8

/-- I resets to 0 (rule R24, decision D6; log 7). -/
def resetI : Word := 0x0000#16

/-- The stack is empty at reset (rule R24, decision D6; log 7). -/
def resetSp : Nat := 0

/-- DT and ST reset to 0 (rule R24, decision D6; log 7). -/
def resetTimer : Byte := 0x00#8

/-- All pixels are unset at reset (rule R24, decision D6; log 7). -/
def resetFb : Vector (BitVec 64) 32 := Vector.replicate 32 0#64

/-- All keys are up at reset (rule R24, decision D6; log 7). -/
def resetKeys : BitVec 16 := 0#16

/-- A quirk bit's default: off (rules R6, R24). -/
def resetQuirk : Bool := false

/-- The font table of rule R16, PRESUMED: the spec marks it as general knowledge (G1; log 6). -/
def defaultFontList : List Byte :=
  [0xF0, 0x90, 0x90, 0x90, 0xF0, 0x20, 0x60, 0x20, 0x20, 0x70, 0xF0, 0x10, 0xF0, 0x80, 0xF0, 0xF0, 0x10, 0xF0, 0x10, 0xF0] ++
  [0x90, 0x90, 0xF0, 0x10, 0x10, 0xF0, 0x80, 0xF0, 0x10, 0xF0, 0xF0, 0x80, 0xF0, 0x90, 0xF0, 0xF0, 0x10, 0x20, 0x40, 0x40] ++
  [0xF0, 0x90, 0xF0, 0x90, 0xF0, 0xF0, 0x90, 0xF0, 0x10, 0xF0, 0xF0, 0x90, 0xF0, 0x90, 0x90, 0xE0, 0x90, 0xE0, 0x90, 0xE0] ++
  [0xF0, 0x80, 0x80, 0x80, 0xF0, 0xE0, 0x90, 0x90, 0x90, 0xE0, 0xF0, 0x80, 0xF0, 0x80, 0xF0, 0xF0, 0x80, 0xF0, 0x80, 0x80]

/-- The default parameters of rule R7: `STACK_DEPTH` 16 (decision D2), `FONT_BASE` 0x000 (decision D3) and the default
`FONT_DATA` (decision D4); log 6. -/
def defaultParams : Params where
  stackDepth := 16
  fontBase := 0x000
  fontData := Vector.ofFn fun k => defaultFontList.getD k.val 0x00#8

end Sys2Proof.Machine
end

