-- ==== Sys2Proof/Machine/State.lean ====
section
/-! DEFINITION. The state of the CORE as plain data (spec/10_state.md rules R10 to R24), the six fault causes
(spec/60_exceptions.md rule R101), and the state right after reset. -/

namespace Sys2Proof.Machine

/-- The six causes of rule R101. They stand in the register FAULT once raised; a step of a halted core answers with the
latched one (rules R112, R116). -/
inductive Fault where
  /-- Code 1, raised by the dispatcher for a word that is no instruction (rule R102). Safe: the spec names it fatal. -/
  | invalidOpcode
  /-- Code 2, raised by 2NNN on a full stack (rule R103). Safe: the spec's policy where its source is open. -/
  | stackOverflow
  /-- Code 3, raised by 00EE on an empty stack (rule R104). Safe: the spec's policy where its source is undefined. -/
  | stackUnderflow
  /-- Code 4, raised by the fetch unit when PC > 0xFFE (rule R105). Safe: the address does not exist. -/
  | fetchAddrFault
  /-- Code 5, raised by DXYN, FX33, FX55, FX65 when their range passes 0xFFF (rule R106). Safe: the address does not
  exist. -/
  | dataAddrFault
  /-- Code 6, raised by EX9E, EXA1 when VX > 15 (rule R107). Safe: the key does not exist. -/
  | keyIndexFault
deriving DecidableEq, Repr

/-- Why the model gives no meaning. -/
inductive Refusal where
  /-- An instruction whose meaning has not been written, raised by an arm of `exec`. Safe: nothing can be proved of it.
  No arm uses it. -/
  | notModelled (mnemonic : String)
deriving DecidableEq, Repr

/-- Memory: the bytes written since reset as (address, byte) pairs, addresses strictly rising, no entry equal to a font
byte the address holds at reset (log 3). -/
abbrev Memory := List Host.Cell

/-- The call stack: the entries written since reset as (index, value) pairs, indexes strictly rising (log 4). -/
abbrev CallStack := List (Nat × Word)

/-- All state of the CORE (rules R10 to R20), the parameters of rule R7, and two counters that index free values. -/
structure State where
  /-- V0..VF (rule R10). -/
  v : Vector Byte 16
  /-- The program counter (rule R13). -/
  pc : Word
  /-- The index register (rule R12). -/
  i : Word
  /-- The number of call-stack entries in use (rule R14). -/
  sp : Nat
  /-- The call-stack entries (rule R14). -/
  stack : CallStack
  /-- The delay timer (rule R15). -/
  dt : Byte
  /-- The sound timer (rule R15). -/
  st : Byte
  /-- The 4096 bytes of memory (rule R16). -/
  mem : Memory
  /-- The display, row by row; bit `col` of row `row` is `FB[row*64 + col]` (rule R17; log 25). -/
  fb : Vector (BitVec 64) 32
  /-- The keys, bit `k` for key `k` (rule R18). -/
  keys : BitVec 16
  /-- `Q_SHIFT` (rule R19). -/
  qShift : Bool
  /-- `Q_JUMP` (rule R19). -/
  qJump : Bool
  /-- `Q_LDST` (rule R19). -/
  qLdst : Bool
  /-- `FAULT`: none for code 0 (rule R20; log 9). -/
  fault : Option Fault
  /-- The parameters of rule R7; nothing writes them. -/
  params : Params
  /-- The model's own: how many `reset` moves the host has made (log 5). -/
  epoch : Nat
  /-- The model's own: how many random bytes CXNN has drawn (log 2). -/
  randDraws : Nat
deriving DecidableEq, Repr

/-- The state right after reset with the default quirk bits and parameters (rules R24, R127). Memory and stack list
nothing: the font and the free values are what an unlisted address or entry reads as. -/
def State.reset : State where
  v := resetV
  pc := resetPc
  i := resetI
  sp := resetSp
  stack := []
  dt := resetTimer
  st := resetTimer
  mem := []
  fb := resetFb
  keys := resetKeys
  qShift := resetQuirk
  qJump := resetQuirk
  qLdst := resetQuirk
  fault := none
  params := defaultParams
  epoch := 0
  randDraws := 0

end Sys2Proof.Machine
end

