-- ==== Sys2Proof/Machine/Ops.lean ====
section
/-! DEFINITION. The named operations over registers, memory, stack, display and faults that the meanings share:
spec/10_state.md rule R14, 20_memory.md rules R31 and R32, 40_step rules R57 and R58, 60_exceptions.md rules R101 and
R111, 70_reset_and_hazards.md rule R127. -/

namespace Sys2Proof.Machine

/-- What a step or a meaning answers. -/
abbrev Result := Host.Outcome State Fault Refusal

/-! ### Sparse data in canonical form: pairs of index and value, indexes strictly rising -/

/-- The value listed at index `a`. -/
def Sparse.get? {α : Type} : List (Nat × α) → Nat → Option α
  | [], _ => none
  | c :: rest, a => if c.1 = a then some c.2 else Sparse.get? rest a

/-- List `b` at index `a`, in its place. -/
def Sparse.put {α : Type} : List (Nat × α) → Nat → α → List (Nat × α)
  | [], a, b => [(a, b)]
  | c :: rest, a, b =>
    if a < c.1 then (a, b) :: c :: rest
    else if a = c.1 then (a, b) :: rest
    else c :: Sparse.put rest a b

/-- List nothing at index `a`. -/
def Sparse.erase {α : Type} : List (Nat × α) → Nat → List (Nat × α)
  | [], _ => []
  | c :: rest, a => if c.1 = a then Sparse.erase rest a else c :: Sparse.erase rest a

/-- Indexes strictly rise. -/
abbrev Sparse.Rising {α : Type} (l : List (Nat × α)) : Prop := l.Pairwise (fun c d => c.1 < d.1)

/-! ### Memory (rules R16, R30, R31) -/

/-- The byte of the font that address `a` holds at reset: `MEM[FONT_BASE + k] = FONT_DATA[k]` (rule R16). None outside
the font, where rule R24 leaves the reset content unspecified. -/
def fontByte (p : Params) (a : Nat) : Option Byte :=
  if p.fontBase ≤ a then p.fontData[a - p.fontBase]? else none

/-- What an address that memory does not list reads as: its font byte, else the free value of the present reset
(rules R16, R24; log 3). -/
def unlistedByte (p : Params) (epoch a : Nat) : Byte := (fontByte p a).getD (Config.freeMem epoch a)

/-- Write one byte, keeping the canonical form: an address written back to its font byte is listed no more. -/
def Memory.put (p : Params) (m : Memory) (a : Nat) (b : Byte) : Memory :=
  if fontByte p a = some b then Sparse.erase m a else Sparse.put m a b

/-- The canonical form of memory: addresses of the 4096-byte space, strictly rising, no entry equal to the font byte its
address reads as when unlisted. -/
abbrev Memory.wf (p : Params) (m : Memory) : Prop :=
  Sparse.Rising m ∧ ∀ c ∈ m, c.1 < 0x1000 ∧ fontByte p c.1 ≠ some c.2

/-- `MEM[a]`, for an address inside the space (rule R31). -/
def State.byteAt (s : State) (a : Nat) : Byte :=
  match Sparse.get? s.mem a with
  | some b => b
  | none => unlistedByte s.params s.epoch a

/-- `MEM[a] <- b`, for an address inside the space (rule R31). -/
def State.setByte (s : State) (a : Nat) (b : Byte) : State := { s with mem := Memory.put s.params s.mem a b }

/-- `MEM[base], MEM[base+1], … <- bs`, in rising order of addresses (rule R33). -/
def State.storeBlock (s : State) (base : Nat) : List Byte → State
  | [] => s
  | b :: bs => (s.setByte base b).storeBlock (base + 1) bs

/-- `MEM[base .. base+len-1]`, in rising order of addresses (rule R33). -/
def State.readBlock (s : State) (base len : Nat) : List Byte := (List.range len).map fun k => s.byteAt (base + k)

/-- The check of rule R31 over a whole range of `len` bytes at `base`, made before any access: no address exceeds 0xFFF,
nothing wraps (decision D8), and an empty range passes (decision D16). -/
def dataRangeOk (base len : Nat) : Bool := decide (len = 0 ∨ base + len - 1 ≤ 0xFFF)

/-! ### Registers (rules R10 to R13, R15) -/

/-- `V[x]`. -/
def State.getV (s : State) (x : Nibble) : Byte := s.v[x.toNat]'x.isLt

/-- `V[x] <- b`. -/
def State.setV (s : State) (x : Nibble) (b : Byte) : State := { s with v := s.v.set x.toNat b x.isLt }

/-- `V[0], V[1], … <- bs`; registers past the list keep their value (rule R100). -/
def State.setVs (s : State) (bs : List Byte) : State :=
  { s with v := Vector.ofFn fun k : Fin 16 => bs[k.val]?.getD s.v[k] }

/-- `PC <- a`. -/
def State.setPc (s : State) (a : Word) : State := { s with pc := a }

/-- `I <- a`. -/
def State.setI (s : State) (a : Word) : State := { s with i := a }

/-- `DT <- b`. -/
def State.setDt (s : State) (b : Byte) : State := { s with dt := b }

/-- `ST <- b`. -/
def State.setSt (s : State) (b : Byte) : State := { s with st := b }

/-- `PC <- (PC + 2) mod 2^16`: what the fetch does, and once more what a skip does (rule R58). -/
def State.advance (s : State) : State := s.setPc (s.pc + 2#16)

/-- `PC <- (PC - 2) mod 2^16`: the rewind of FX0A (rules R58, R93). -/
def State.rewind (s : State) : State := s.setPc (s.pc - 2#16)

/-- Go on to the next free `rand`, after CXNN has read one (log 2). -/
def State.nextRand (s : State) : State := { s with randDraws := s.randDraws + 1 }

/-! ### The call stack (rule R14) -/

/-- `STACK[j]`; an entry not written since reset reads as a free value (log 4). -/
def State.stackAt (s : State) (j : Nat) : Word := (Sparse.get? s.stack j).getD (Config.freeStack s.epoch j)

/-- The canonical form of the call stack: indexes below `STACK_DEPTH`, strictly rising. -/
abbrev CallStack.wf (p : Params) (k : CallStack) : Prop := Sparse.Rising k ∧ ∀ c ∈ k, c.1 < p.stackDepth

/-- `push(a)`: check, write, then increment SP. SP never exceeds `STACK_DEPTH` (rule R14), so "at least" is the rule's
"equal" (log 10). -/
def State.push (s : State) (a : Word) : Except Fault State :=
  if s.params.stackDepth ≤ s.sp then .error .stackOverflow
  else .ok { s with stack := Sparse.put s.stack s.sp a, sp := s.sp + 1 }

/-- `pop()`: check, decrement SP, then read; the entry keeps its value. -/
def State.pop (s : State) : Except Fault (Word × State) :=
  if s.sp = 0 then .error .stackUnderflow
  else .ok (s.stackAt (s.sp - 1), { s with sp := s.sp - 1 })

/-! ### The display (rule R17) -/

/-- The display bits. -/
abbrev Display := Vector (BitVec 64) 32

/-- The pixel at column `col`, row `row`: `FB[row*64 + col]`. -/
def Display.pixel (fb : Display) (col row : Nat) : Bool := (fb[row]?.getD 0#64).getLsbD col

/-- Exclusive-or a 1 into the pixel at column `col`, row `row`. -/
def Display.flip (fb : Display) (col row : Nat) : Display :=
  fb.setIfInBounds row ((fb[row]?.getD 0#64) ^^^ (1#64 <<< col))

/-- The display with every pixel unset. -/
def Display.clear : Display := Vector.replicate 32 0#64

/-- Replace the display. -/
def State.setFb (s : State) (fb : Display) : State := { s with fb := fb }

/-- The pixel of the state's display at column `col`, row `row`. -/
def State.pixel (s : State) (col row : Nat) : Bool := Display.pixel s.fb col row

/-! ### The keys (rule R18) -/

/-- `KEYS[k]`. -/
def State.keyDown (s : State) (k : Nat) : Bool := s.keys.getLsbD k

/-! ### Faults (rules R101, R111, R112, R114, R127) -/

/-- The cause code of rule R101. -/
def Fault.code : Fault → BitVec 3
  | .invalidOpcode => 1#3
  | .stackOverflow => 2#3
  | .stackUnderflow => 3#3
  | .fetchAddrFault => 4#3
  | .dataAddrFault => 5#3
  | .keyIndexFault => 6#3

/-- The 3-bit register FAULT: 0, or the latched cause code (rules R20, R101). -/
def State.faultReg (s : State) : BitVec 3 :=
  match s.fault with
  | none => 0#3
  | some f => f.code

/-- `raise f` (rule R111), on the state as the step found it: FAULT takes the cause, every other element, PC among them,
keeps the value it had before the step. No handler is entered (log 8). -/
def takeFault (f : Fault) (s : State) : Result := .next { s with fault := some f }

/-- A step of a halted core: nothing changes and the latched cause is reported again (rules R112, R116; log 8). -/
def haltedStep (f : Fault) : Result := .fault f

/-- The only way out of the halted state (rules R112, R114), there being no return from a fault: the host move
`reset(q_shift, q_jump, q_ldst)` of rule R127. The parameters stay, and the free values after it are new ones
(logs 5, 6). -/
def hostReset (qs qj ql : Bool) (s : State) : State :=
  { State.reset with
    qShift := qs, qJump := qj, qLdst := ql, params := s.params, epoch := s.epoch + 1, randDraws := s.randDraws }

/-- Go on with `body` if the range of `len` bytes at I lies in memory, else raise `DataAddrFault` with nothing done
(rules R31, R106). -/
def guardRange (len : Nat) (s body : State) : Result :=
  if dataRangeOk s.i.toNat len then .next body else takeFault .dataAddrFault s

/-! ### Fetching (rules R32, R57) -/

/-- The two bytes at PC and PC+1, or `FetchAddrFault` when one of them is outside memory. -/
def State.fetch (s : State) : Except Fault (List Byte) :=
  if 0xFFE < s.pc.toNat then .error .fetchAddrFault
  else .ok [s.byteAt s.pc.toNat, s.byteAt (s.pc.toNat + 1)]

/-- A state whose next fetch reads `bytes`: they are stored at PC, a latched fault is cleared, and a PC from which
nothing can be fetched becomes the entry point (log 12). -/
def State.placeAtFetch (s : State) (bytes : List Byte) : State :=
  let pc := if 0xFFE < s.pc.toNat then resetPc else s.pc
  { s with pc := pc, fault := none }.storeBlock pc.toNat bytes

end Sys2Proof.Machine
end

