-- ==== Sys2Proof/Machine/Operands.lean ====
section
/-! DEFINITION. The operand forms of spec/30_encoding.md rule R48 and of the instruction rules: every immediate is
unsigned and zero-extended; register operands are `State.getV`. -/

namespace Sys2Proof.Machine

/-- NNN as a 16-bit address. -/
def addrOf (nnn : Addr12) : Word := nnn.zeroExtend 16

/-- An 8-bit value as a 16-bit one. -/
def zext16 (b : Byte) : Word := b.zeroExtend 16

/-- The value 8XY6 and 8XYE shift: VY when `Q_SHIFT` is set, else VX (rules R82, R84). -/
def shiftSource (s : State) (x y : Nibble) : Byte := if s.qShift then s.getV y else s.getV x

/-- The offset of BNNN: VX when `Q_JUMP` is set, else V0 (rule R86). -/
def jumpOffset (s : State) (x : Nibble) : Byte := if s.qJump then s.getV x else s.getV 0x0#4

/-- The key number in VX, or `KeyIndexFault` when it exceeds 15; it is not masked (rules R90, R91, decision D14). -/
def keyIndex (s : State) (x : Nibble) : Except Fault Nat :=
  if 15 < (s.getV x).toNat then .error .keyIndexFault else .ok (s.getV x).toNat

/-- The lowest-numbered key that is down (rule R93). -/
def lowestKey (s : State) : Option Nat := (List.range 16).find? s.keyDown

/-- The address of the glyph for the low nibble of a byte: `FONT_BASE + 5 * (v & 0xF)` (rule R97). -/
def glyphAddr (p : Params) (b : Byte) : Word := BitVec.ofNat 16 (p.fontBase + 5 * (b.toNat % 16))

/-- The sum of FX1E, masked to 12 bits (rule R96). -/
def indexSum (i : Word) (b : Byte) : Word := (i + zext16 b) &&& 0x0FFF#16

/-- The increment of FX55 and FX65: `I <- (I + len) mod 2^16` when `Q_LDST` is set, not masked to 12 bits
(rules R99, R100, decision D17). -/
def State.bumpIndex (s : State) (len : Nat) : State := if s.qLdst then s.setI (s.i + BitVec.ofNat 16 len) else s

/-- How many registers FX55 and FX65 move: V0..VX (rules R99, R100). -/
def blockLen (x : Nibble) : Nat := x.toNat + 1

/-- The three decimal digits of a byte, hundreds first (rule R98). -/
def bcdDigits (b : Byte) : List Byte := [b / 100#8, b / 10#8 % 10#8, b % 10#8]

/-- The column at which a sprite starts: VX mod 64 (rule R88). -/
def spriteCol (b : Byte) : Nat := b.toNat % 64

/-- The row at which a sprite starts: VY mod 32 (rule R88). -/
def spriteRow (b : Byte) : Nat := b.toNat % 32

end Sys2Proof.Machine
end

