-- ==== Sys2Proof/Machine/Flags.lean ====
section
/-! DEFINITION. The values written to VF as a flag, exactly those of spec/10_state.md rule R11; each is 0 or 1. -/

namespace Sys2Proof.Machine

/-- A flag value. -/
def flagOf (c : Bool) : Byte := if c then 0x01#8 else 0x00#8

/-- 8XY4: 1 if the wrapped sum is below the old VX, that is on unsigned overflow (rule R80). -/
def carryFlag (a b : Byte) : Byte := flagOf (decide ((a + b).toNat < a.toNat))

/-- 8XY5 with minuend VX, 8XY7 with minuend VY: 1 if the minuend is strictly greater, so 0 for equal operands
(rules R81, R83, conflict C1). -/
def noBorrowFlag (minuend subtrahend : Byte) : Byte := flagOf (decide (subtrahend.toNat < minuend.toNat))

/-- 8XY6: bit 0 of the value before the shift (rule R82). -/
def shiftRightFlag (a : Byte) : Byte := flagOf (a.getLsbD 0)

/-- 8XYE: bit 7 of the value before the shift (rule R84). -/
def shiftLeftFlag (a : Byte) : Byte := flagOf (a.getLsbD 7)

/-- DXYN: 1 if the draw cleared a set pixel (rule R89). -/
def collisionFlag (hit : Bool) : Byte := flagOf hit

end Sys2Proof.Machine
end

