-- ==== Sys2Proof/Machine/Alu.lean ====
section
/-! DEFINITION. Families 6, 7 and 8: immediates and the register ALU (spec/43_fam6_7_immediate.md,
44_fam8_alu.md). All arithmetic is unsigned and wraps modulo 256 (rule R75). Operands are those of the state before the
instruction; the result is written first and the flag last (rule R63). -/

namespace Sys2Proof.Machine

/-- Write a result to VX and no flag. -/
def aluPlain (x : Nibble) (r : Byte) (s : State) : Result := .next (s.advance.setV x r)

/-- Write a result to VX, then a flag to VF (rule R63). -/
def aluFlagged (x : Nibble) (r flag : Byte) (s : State) : Result := .next ((s.advance.setV x r).setV vf flag)

/-- 6XNN `LD Vx, NN` (rule R73). -/
def execLdImm (x : Nibble) (nn : Byte) (s : State) : Result := aluPlain x nn s

/-- 7XNN `ADD Vx, NN`: no flag change (rule R74). -/
def execAddImm (x : Nibble) (nn : Byte) (s : State) : Result := aluPlain x (s.getV x + nn) s

/-- 8XY0 `LD Vx, Vy` (rule R76). -/
def execLdReg (x y : Nibble) (s : State) : Result := aluPlain x (s.getV y) s

/-- 8XY1 `OR Vx, Vy` (rule R77). -/
def execOrReg (x y : Nibble) (s : State) : Result := aluPlain x (s.getV x ||| s.getV y) s

/-- 8XY2 `AND Vx, Vy` (rule R78). -/
def execAndReg (x y : Nibble) (s : State) : Result := aluPlain x (s.getV x &&& s.getV y) s

/-- 8XY3 `XOR Vx, Vy` (rule R79). -/
def execXorReg (x y : Nibble) (s : State) : Result := aluPlain x (s.getV x ^^^ s.getV y) s

/-- 8XY4 `ADD Vx, Vy` (rule R80). -/
def execAddReg (x y : Nibble) (s : State) : Result :=
  aluFlagged x (s.getV x + s.getV y) (carryFlag (s.getV x) (s.getV y)) s

/-- 8XY5 `SUB Vx, Vy` (rule R81). -/
def execSubReg (x y : Nibble) (s : State) : Result :=
  aluFlagged x (s.getV x - s.getV y) (noBorrowFlag (s.getV x) (s.getV y)) s

/-- 8XY6 `SHR Vx, Vy` (rule R82). -/
def execShr (x y : Nibble) (s : State) : Result :=
  aluFlagged x (shiftSource s x y >>> 1) (shiftRightFlag (shiftSource s x y)) s

/-- 8XY7 `SUBN Vx, Vy` (rule R83). -/
def execSubn (x y : Nibble) (s : State) : Result :=
  aluFlagged x (s.getV y - s.getV x) (noBorrowFlag (s.getV y) (s.getV x)) s

/-- 8XYE `SHL Vx, Vy` (rule R84). -/
def execShl (x y : Nibble) (s : State) : Result :=
  aluFlagged x (shiftSource s x y <<< 1) (shiftLeftFlag (shiftSource s x y)) s

end Sys2Proof.Machine
end

