-- ==== Sys2Proof/Machine/ClearCall.lean ====
section
/-! DEFINITION. Families 0, 1, 2: clear, return, jump, call (spec/41_fam0_1_2_clear_return_jump_call.md). Every meaning
takes the state as the step finds it, PC at the instruction; `State.advance` is the fetch's advance of rule R58. -/

namespace Sys2Proof.Machine

/-- 00E0 `CLS`: zero the whole display (rule R65). -/
def execCls (s : State) : Result := .next (s.advance.setFb Display.clear)

/-- 00EE `RET`: pop a return address into PC, or raise `StackUnderflow` (rule R66). -/
def execRet (s : State) : Result :=
  match s.advance.pop with
  | .error f => takeFault f s
  | .ok (a, t) => .next (t.setPc a)

/-- 1NNN `JP`: PC := NNN (rule R67). -/
def execJp (nnn : Addr12) (s : State) : Result := .next (s.advance.setPc (addrOf nnn))

/-- 2NNN `CALL`: push the advanced PC, then PC := NNN, or raise `StackOverflow` (rule R68). -/
def execCall (nnn : Addr12) (s : State) : Result :=
  match s.advance.push s.advance.pc with
  | .error f => takeFault f s
  | .ok t => .next (t.setPc (addrOf nnn))

end Sys2Proof.Machine
end

