-- ==== Sys2Proof/Machine/Draw.lean ====
section
/-! DEFINITION. Family D: draw sprite (spec/46_famD_draw.md rules R88, R89). -/

namespace Sys2Proof.Machine

/-- The display so far and whether a set pixel has been cleared. -/
abbrev Drawing := Display × Bool

/-- Draw one set sprite bit at column `col`, row `row`: note a collision, then flip the pixel (rule R89). -/
def drawPixel (col row : Nat) (d : Drawing) : Drawing :=
  (Display.flip d.1 col row, d.2 || Display.pixel d.1 col row)

/-- Draw the 8 columns of one sprite row `b` at display row `row`; bit 7 is the leftmost column (decision D15), and
columns above 63 are clipped (rule R88). -/
def drawRow (x0 row : Nat) (b : Byte) (d : Drawing) : Drawing :=
  (List.range 8).foldl
    (fun d c => if x0 + c ≤ 63 ∧ b.getLsbD (7 - c) = true then drawPixel (x0 + c) row d else d) d

/-- Draw the sprite rows `bs` from display row `row` down; rows above 31 are clipped (rule R88). -/
def drawRows (x0 : Nat) : Nat → List Byte → Drawing → Drawing
  | _, [], d => d
  | row, b :: bs, d => drawRows x0 (row + 1) bs (if row ≤ 31 then drawRow x0 row b d else d)

/-- DXYN `DRW Vx, Vy, N`: the whole range of N bytes at I is checked first, the coordinates are those before VF is
written, and VF is always written, to 0 for N = 0 (rule R89, decision D16). -/
def execDrw (x y n : Nibble) (s : State) : Result :=
  let d := drawRows (spriteCol (s.getV x)) (spriteRow (s.getV y)) (s.readBlock s.i.toNat n.toNat) (s.fb, false)
  guardRange n.toNat s ((s.advance.setFb d.1).setV vf (collisionFlag d.2))

end Sys2Proof.Machine
end

