-- ==== Sys2Proof/Machine/IndexJumpRandom.lean ====
section
/-! DEFINITION. Families A, B, C: load index, jump with offset, random (spec/45_famA_B_C_index_jumpoffset_random.md). -/

namespace Sys2Proof.Machine

/-- ANNN `LD I, NNN` (rule R85). -/
def execLdI (nnn : Addr12) (s : State) : Result := .next (s.advance.setI (addrOf nnn))

/-- BNNN `JP V0, NNN`: the base is the whole NNN under both settings of `Q_JUMP` (decision D12), the sum is modulo 2^16
and not masked to 12 bits (rule R86). -/
def execJpV0 (x : Nibble) (nnn : Addr12) (s : State) : Result :=
  .next (s.advance.setPc (addrOf nnn + zext16 (jumpOffset s x)))

/-- CXNN `RND Vx, NN`: VX := `rand` AND NN, for the free byte `rand` of this draw (rules R8, R87; log 2). -/
def execRnd (x : Nibble) (nn : Byte) (s : State) : Result :=
  .next ((s.advance.setV x (Config.rand s.randDraws &&& nn)).nextRand)

end Sys2Proof.Machine
end

