-- ==== Sys2Proof/Machine/Skip.lean ====
section
/-! DEFINITION. Families 3, 4, 5, 9: conditional skips (spec/42_fam3_4_5_9_skips.md). -/

namespace Sys2Proof.Machine

/-- A skip: PC is advanced by the fetch, and once more if the condition holds (rule R58). -/
def skipIf (c : Bool) (s : State) : Result := .next (if c then s.advance.advance else s.advance)

/-- 3XNN `SE Vx, NN` (rule R69). -/
def execSeImm (x : Nibble) (nn : Byte) (s : State) : Result := skipIf (s.getV x == nn) s

/-- 4XNN `SNE Vx, NN` (rule R70). -/
def execSneImm (x : Nibble) (nn : Byte) (s : State) : Result := skipIf (s.getV x != nn) s

/-- 5XY0 `SE Vx, Vy` (rule R71). -/
def execSeReg (x y : Nibble) (s : State) : Result := skipIf (s.getV x == s.getV y) s

/-- 9XY0 `SNE Vx, Vy` (rule R72). -/
def execSneReg (x y : Nibble) (s : State) : Result := skipIf (s.getV x != s.getV y) s

end Sys2Proof.Machine
end

