-- ==== Sys2Proof/Machine/KeySkip.lean ====
section
/-! DEFINITION. Family E: skips on the key state (spec/47_famE_key_skips.md). -/

namespace Sys2Proof.Machine

/-- Skip when key VX is in the given position, or raise `KeyIndexFault` when VX names no key. -/
def skipOnKey (x : Nibble) (down : Bool) (s : State) : Result :=
  match keyIndex s x with
  | .error f => takeFault f s
  | .ok k => skipIf (s.keyDown k == down) s

/-- EX9E `SKP Vx` (rule R90). -/
def execSkp (x : Nibble) (s : State) : Result := skipOnKey x true s

/-- EXA1 `SKNP Vx` (rule R91). -/
def execSknp (x : Nibble) (s : State) : Result := skipOnKey x false s

end Sys2Proof.Machine
end

