-- ==== Sys2Proof/Machine/TimerIndexBlock.lean ====
section
/-! DEFINITION. Family F: timers, key wait, index add, font, BCD, register block
(spec/48_famF_timers_key_index_font_bcd_block.md). -/

namespace Sys2Proof.Machine

/-- FX07 `LD Vx, DT` (rule R92). -/
def execLdVxDt (x : Nibble) (s : State) : Result := .next (s.advance.setV x s.dt)

/-- FX0A `LD Vx, K`: the lowest key that is down goes to VX; with no key down PC is rewound to this instruction
(rule R93). -/
def execLdVxKey (x : Nibble) (s : State) : Result :=
  match lowestKey s with
  | some k => .next (s.advance.setV x (BitVec.ofNat 8 k))
  | none => .next s.advance.rewind

/-- FX15 `LD DT, Vx` (rule R94). -/
def execLdDtVx (x : Nibble) (s : State) : Result := .next (s.advance.setDt (s.getV x))

/-- FX18 `LD ST, Vx` (rule R95). -/
def execLdStVx (x : Nibble) (s : State) : Result := .next (s.advance.setSt (s.getV x))

/-- FX1E `ADD I, Vx`: masked to 12 bits, VF not written (rule R96, decision D10). -/
def execAddI (x : Nibble) (s : State) : Result := .next (s.advance.setI (indexSum s.i (s.getV x)))

/-- FX29 `LD F, Vx` (rule R97). -/
def execLdFont (x : Nibble) (s : State) : Result := .next (s.advance.setI (glyphAddr s.params (s.getV x)))

/-- FX33 `LD B, Vx`: the range I .. I+2 is checked before any write (rule R98). -/
def execLdBcd (x : Nibble) (s : State) : Result :=
  guardRange 3 s (s.advance.storeBlock s.i.toNat (bcdDigits (s.getV x)))

/-- FX55 `LD [I], Vx`: V0..VX to memory at I, then I is incremented under `Q_LDST` (rule R99). -/
def execDumpRegs (x : Nibble) (s : State) : Result :=
  guardRange (blockLen x) s
    ((s.advance.storeBlock s.i.toNat (s.v.toList.take (blockLen x))).bumpIndex (blockLen x))

/-- FX65 `LD Vx, [I]`: memory at I to V0..VX, then I is incremented under `Q_LDST` (rule R100). -/
def execLoadRegs (x : Nibble) (s : State) : Result :=
  guardRange (blockLen x) s ((s.advance.setVs (s.readBlock s.i.toNat (blockLen x))).bumpIndex (blockLen x))

end Sys2Proof.Machine
end

