-- ==== Sys2Proof/Machine/Step.lean ====
section
/-! DEFINITION. One step of the core (spec/40_step_fetch_decode_dispatch.md rule R61), and the status it reports
(spec/60_exceptions.md rule R116). The advance of PC by 2 (rule R58) is part of each meaning, which starts from the state
as the step found it, so that a raised fault leaves that state (rule R111; log 11). -/

namespace Sys2Proof.Machine

/-- `step`: halted, nothing changes and the cause is reported; else fetch, decode, dispatch, execute. -/
def step (s : State) : Host.Outcome State Fault Refusal :=
  match s.fault with
  | some f => haltedStep f
  | none =>
    match s.fetch with
    | .error f => takeFault f s
    | .ok bytes =>
      match decode bytes with
      | .error _ => takeFault .invalidOpcode s
      | .ok (i, _) => exec i s

/-- The status a step reports to the host (rule R116): `none` for ok, else the cause, new or latched. -/
def stepStatus (s : State) : Option Fault :=
  match step s with
  | .next t => t.fault
  | .fault f => some f
  | .refused _ => none

/-- `s` with the instruction word `w` of `nbits` bits where the next step fetches (log 12). -/
def State.withFetchWord (s : State) (nbits w : Nat) : State := s.placeAtFetch (tableBytes nbits w)

end Sys2Proof.Machine
end

