-- ==== Sys2Proof/Machine/HostMoves.lean ====
section
/-! DEFINITION. The host's moves between steps (spec/00_scope.md rule R3, 60_exceptions.md rules R119 to R124,
70_reset_and_hazards.md rules R127 to R131). None reads or writes FAULT but `hostReset` (rule R124); `hostReset` stands in
Ops.lean beside taking a fault. -/

namespace Sys2Proof.Machine

/-- What `load` answers (rules R117, R129). -/
inductive LoadStatus where
  /-- The image has been copied. -/
  | ok
  /-- The image is longer than 3584 bytes and nothing has changed. -/
  | rejected
deriving DecidableEq, Repr

/-- `load(bytes)`: copy to 0x200 and up; more than 3584 bytes are rejected with nothing changed (rule R129). -/
def load (bytes : List Byte) (s : State) : LoadStatus × State :=
  if 3584 < bytes.length then (.rejected, s) else (.ok, s.storeBlock 0x200 bytes)

/-- One less, and 0 stays 0 (rule R120). -/
def countDown (b : Byte) : Byte := if b = 0#8 then 0#8 else b - 1#8

/-- `tick_delay()` (rule R120). -/
def tickDelay (s : State) : State := s.setDt (countDown s.dt)

/-- `tick_sound()` (rule R120). -/
def tickSound (s : State) : State := s.setSt (countDown s.st)

/-- `set_key(index, down)`; the index is 4 bits wide, so no other can be presented (rule R123, decision D27). -/
def setKey (k : Nibble) (down : Bool) (s : State) : State :=
  { s with keys := if down then s.keys ||| (1#16 <<< k.toNat) else s.keys &&& ~~~(1#16 <<< k.toNat) }

/-- `sound_timer()`: the value of ST (rule R121). -/
def soundTimer (s : State) : Byte := s.st

/-- `display()`: a snapshot of the 64 x 32 bits (rule R122). -/
def display (s : State) : Display := s.fb

/-- Bit `k` of the snapshot, `k = row*64 + col` (rules R17, R122). -/
def displayBit (s : State) (k : Nat) : Bool := Display.pixel (display s) (k % 64) (k / 64)

/-- A host move that may change the state, other than starting a step (rule R131). -/
inductive HostMove where
  /-- `reset(q_shift, q_jump, q_ldst)`. -/
  | reset (qs qj ql : Bool)
  /-- `load(bytes)`. -/
  | load (bytes : List Byte)
  /-- `tick_delay()`. -/
  | tickDelay
  /-- `tick_sound()`. -/
  | tickSound
  /-- `set_key(index, down)`. -/
  | setKey (k : Nibble) (down : Bool)
deriving DecidableEq, Repr

/-- The state after a host move. -/
def hostMove (m : HostMove) (s : State) : State :=
  match m with
  | .reset qs qj ql => hostReset qs qj ql s
  | .load bytes => (load bytes s).2
  | .tickDelay => tickDelay s
  | .tickSound => tickSound s
  | .setKey k down => setKey k down s

end Sys2Proof.Machine
end

