-- ==== Sys2Proof/Safety.lean ====
section
/-! DEFINITION. The terms claims are made in: which parts of the state an instruction may write, what leaving the rest
unchanged means, the condition on which an instruction traps, the invariant of the machine, and what a safe run is. -/

namespace Sys2Proof.Machine

/-! ### Frames -/

/-- What may be written besides PC: the registers `v` names, and the parts whose field is true. -/
structure Writes where
  /-- Which V registers. -/
  v : Nibble → Bool := fun _ => false
  /-- I. -/
  i : Bool := false
  /-- SP and the call stack. -/
  stack : Bool := false
  /-- DT. -/
  dt : Bool := false
  /-- ST. -/
  st : Bool := false
  /-- Memory. -/
  mem : Bool := false
  /-- The display. -/
  fb : Bool := false
  /-- The count of random draws (the model's own field). -/
  rand : Bool := false

/-- The registers of a list. -/
def regs (l : List Nibble) : Nibble → Bool := fun r => l.contains r

/-- V0..VX. -/
def regsUpTo (x : Nibble) : Nibble → Bool := fun r => decide (r.toNat ≤ x.toNat)

/-- From `s` to `t` nothing changes but PC and what `w` names. Memory and stack are compared by what they read as. The
keys, the quirk bits, the parameters, FAULT and the epoch never change under a frame. -/
structure Frame (w : Writes) (s t : State) : Prop where
  v : ∀ r, w.v r = false → t.getV r = s.getV r
  i : w.i = false → t.i = s.i
  sp : w.stack = false → t.sp = s.sp
  stack : w.stack = false → ∀ j, t.stackAt j = s.stackAt j
  dt : w.dt = false → t.dt = s.dt
  st : w.st = false → t.st = s.st
  mem : w.mem = false → ∀ a, t.byteAt a = s.byteAt a
  fb : w.fb = false → t.fb = s.fb
  rand : w.rand = false → t.randDraws = s.randDraws
  keys : t.keys = s.keys
  qShift : t.qShift = s.qShift
  qJump : t.qJump = s.qJump
  qLdst : t.qLdst = s.qLdst
  params : t.params = s.params
  fault : t.fault = s.fault
  epoch : t.epoch = s.epoch

/-- The writes of each instruction besides PC: the W entries of the access matrix of spec/10_state.md rule R23, an entry
that depends on a quirk bit or a condition taken as a write. -/
def writesOf : Instr → Writes
  | .cls => { fb := true }
  | .ret => { stack := true }
  | .jp _ => {}
  | .call _ => { stack := true }
  | .seImm _ _ => {}
  | .sneImm _ _ => {}
  | .seReg _ _ => {}
  | .ldImm x _ => { v := regs [x] }
  | .addImm x _ => { v := regs [x] }
  | .ldReg x _ => { v := regs [x] }
  | .orReg x _ => { v := regs [x] }
  | .andReg x _ => { v := regs [x] }
  | .xorReg x _ => { v := regs [x] }
  | .addReg x _ => { v := regs [x, vf] }
  | .subReg x _ => { v := regs [x, vf] }
  | .shr x _ => { v := regs [x, vf] }
  | .subn x _ => { v := regs [x, vf] }
  | .shl x _ => { v := regs [x, vf] }
  | .sneReg _ _ => {}
  | .ldI _ => { i := true }
  | .jpV0 _ _ => {}
  | .rnd x _ => { v := regs [x], rand := true }
  | .drw _ _ _ => { v := regs [vf], fb := true }
  | .skp _ => {}
  | .sknp _ => {}
  | .ldVxDt x => { v := regs [x] }
  | .ldVxKey x => { v := regs [x] }
  | .ldDtVx _ => { dt := true }
  | .ldStVx _ => { st := true }
  | .addI _ => { i := true }
  | .ldFont _ => { i := true }
  | .ldBcd _ => { mem := true }
  | .dumpRegs _ => { mem := true, i := true }
  | .loadRegs x => { v := regsUpTo x, i := true }

/-! ### Faults -/

/-- The fault an instruction raises in a state, by the conditions of spec/60_exceptions.md rules R103, R104, R106, R107;
all other instructions raise none (rule R109). -/
def handlerFault (i : Instr) (s : State) : Option Fault :=
  match i with
  | .ret => if s.sp = 0 then some .stackUnderflow else none
  | .call _ => if s.params.stackDepth ≤ s.sp then some .stackOverflow else none
  | .drw _ _ n => if n ≠ 0#4 ∧ 0xFFF < s.i.toNat + n.toNat - 1 then some .dataAddrFault else none
  | .ldBcd _ => if 0xFFF < s.i.toNat + 2 then some .dataAddrFault else none
  | .dumpRegs x => if 0xFFF < s.i.toNat + x.toNat then some .dataAddrFault else none
  | .loadRegs x => if 0xFFF < s.i.toNat + x.toNat then some .dataAddrFault else none
  | .skp x => if 15 < (s.getV x).toNat then some .keyIndexFault else none
  | .sknp x => if 15 < (s.getV x).toNat then some .keyIndexFault else none
  | .cls => none
  | .jp _ => none
  | .seImm _ _ => none
  | .sneImm _ _ => none
  | .seReg _ _ => none
  | .ldImm _ _ => none
  | .addImm _ _ => none
  | .ldReg _ _ => none
  | .orReg _ _ => none
  | .andReg _ _ => none
  | .xorReg _ _ => none
  | .addReg _ _ => none
  | .subReg _ _ => none
  | .shr _ _ => none
  | .subn _ _ => none
  | .shl _ _ => none
  | .sneReg _ _ => none
  | .ldI _ => none
  | .jpV0 _ _ => none
  | .rnd _ _ => none
  | .ldVxDt _ => none
  | .ldVxKey _ => none
  | .ldDtVx _ => none
  | .ldStVx _ => none
  | .addI _ => none
  | .ldFont _ => none

/-- The word at PC, high byte first (rule R57). -/
def wordAtPc (s : State) : Word := s.byteAt s.pc.toNat ++ s.byteAt (s.pc.toNat + 1)

/-- The instruction the next step runs: the core is not halted, PC can be fetched from, and the word is valid. -/
def Runs (s : State) (i : Instr) : Prop :=
  s.fault = none ∧ s.pc.toNat ≤ 0xFFE ∧ decodeWord (wordAtPc s) = .ok i

/-! ### The display -/

/-- Whether an `n`-row sprite at address `base`, placed with its corner at column `x0`, row `y0`, has a set bit on the
display pixel at column `col`, row `row` (rule R88: bit 7 is the leftmost column, nothing wraps). -/
def spriteCovers (s : State) (base x0 y0 n col row : Nat) : Bool :=
  decide (y0 ≤ row ∧ row < y0 + n ∧ x0 ≤ col ∧ col < x0 + 8) &&
    (s.byteAt (base + (row - y0))).getLsbD (7 - (col - x0))

/-! ### The invariant -/

/-- Each stack entry in use has been written, by a call from an address that could be fetched from, so it is at most
0x1000 (rules R13, R14). -/
abbrev State.LiveEntries (s : State) : Prop :=
  ∀ j < s.sp, (Sparse.get? s.stack j).any (fun a => decide (a.toNat ≤ 0x1000)) = true

/-- What every state the machine reaches satisfies: legal parameters (rule R7), memory and stack in canonical form, SP at
most `STACK_DEPTH` with every entry in use written (rule R14), I at most 0x1000 (rule R12), PC at most 0x10FE
(rule R13). -/
abbrev State.Inv (s : State) : Prop :=
  s.params.wf ∧ Memory.wf s.params s.mem ∧ CallStack.wf s.params s.stack ∧ s.sp ≤ s.params.stackDepth ∧
    s.LiveEntries ∧ s.i.toNat ≤ 0x1000 ∧ s.pc.toNat ≤ 0x10FE

/-! ### Safe runs -/

/-- The next `n` steps complete without a fault being raised: a halted state is a fault outcome (rule R112). -/
def SafeRun : Nat → State → Prop
  | 0, s => s.fault = none
  | n + 1, s => s.fault = none ∧ ∃ t, step s = .next t ∧ SafeRun n t

end Sys2Proof.Machine
end

