-- ==== Sys2Proof/Certificates/Slice0/Obligations.lean ====
section
/-! DEFINITION. The statements for the provers. Each docstring names the rule of spec/ it formalises; where a clause rests
on a decision of the spec's own (92_eei_decisions.md) or of the model's (notes/assumptions), it says so. A `Frame` lists
what may change besides PC; everything it does not list is unchanged. -/

open Sys2Proof Sys2Proof.Machine

/-! ### Encoding -/

/-- Decoding an encoded well-formed instruction gives it back, as a word and as bytes in memory order with whatever
follows them (30_encoding.md: rules R46, R47, R49, R53). -/
def Obligations.DecodeOfEncodeIsTheInstruction : Prop :=
  ∀ (i : Instr) (rest : List Byte), i.wellFormed = true →
    decodeWord (encode i) = .ok i ∧ decode (encodeBytes i ++ rest) = .ok (i, rest)

/-- A word that decodes is the encoding of what it decodes to, which is well-formed: no two words mean one instruction
(30_encoding.md: rules R47, R49, R53). -/
def Obligations.EncodeOfDecodeIsTheWord : Prop :=
  ∀ (w : Word) (i : Instr), decodeWord w = .ok i → encode i = w ∧ i.wellFormed = true

/-- The decoder accepts exactly the words that match a row of the opcode table: every other word is an invalid opcode
(rules R53, R54; the treatment of families 0, 5 and 9 is decision D13). -/
def Obligations.DecoderAcceptsExactlyTheOpcodeTable : Prop :=
  ∀ w : Word, (∃ i, decodeWord w = .ok i) ↔ ∃ row ∈ opcodeTable, row.matches w = true

/-- Words written out bit by bit from rule R53 decode to the instructions they stand for, one of each family. -/
def Obligations.WordsWrittenOutBitByBitDecode : Prop :=
  decodeWord 0b0000000011100000#16 = .ok .cls ∧
  decodeWord 0b0001001001001110#16 = .ok (.jp 0x24E#12) ∧
  decodeWord 0b0010101010111100#16 = .ok (.call 0xABC#12) ∧
  decodeWord 0b0011111100000001#16 = .ok (.seImm 0xF#4 0x01#8) ∧
  decodeWord 0b0100101000010000#16 = .ok (.sneImm 0xA#4 0x10#8) ∧
  decodeWord 0b0101000100100000#16 = .ok (.seReg 0x1#4 0x2#4) ∧
  decodeWord 0b0110101001110111#16 = .ok (.ldImm 0xA#4 0x77#8) ∧
  decodeWord 0b0111000011111111#16 = .ok (.addImm 0x0#4 0xFF#8) ∧
  decodeWord 0b1000101010110100#16 = .ok (.addReg 0xA#4 0xB#4) ∧
  decodeWord 0b1001000100100000#16 = .ok (.sneReg 0x1#4 0x2#4) ∧
  decodeWord 0b1010001100000000#16 = .ok (.ldI 0x300#12) ∧
  decodeWord 0b1011001000010000#16 = .ok (.jpV0 0x2#4 0x210#12) ∧
  decodeWord 0b1100001100001111#16 = .ok (.rnd 0x3#4 0x0F#8) ∧
  decodeWord 0b1101000100100101#16 = .ok (.drw 0x1#4 0x2#4 0x5#4) ∧
  decodeWord 0b1110010110011110#16 = .ok (.skp 0x5#4) ∧
  decodeWord 0b1111100101100101#16 = .ok (.loadRegs 0x9#4)

/-! ### The step -/

/-- When the core is not halted, both instruction bytes lie in memory, and the big-endian word at PC decodes to `i`, the
step is exactly the meaning of `i` in that state. On this machine nothing stands around the meaning: the advance of PC by 2
is part of it (rules R57, R58, R60, R61; log 11). -/
def Obligations.StepRunsTheDecodedInstruction : Prop :=
  ∀ (s : State) (i : Instr), s.fault = none → s.pc.toNat ≤ 0xFFE →
    decodeWord (s.byteAt s.pc.toNat ++ s.byteAt (s.pc.toNat + 1)) = .ok i → step s = exec i s

/-- A valid table word stored where the next step fetches is what the next step runs, from every state (the model's
`withFetchWord`, log 12; rules R32, R46, R61). -/
def Obligations.StepRunsTheWordStoredAtTheFetch : Prop :=
  ∀ (s : State) (w : Nat) (i : Instr), decodeTableWord 16 w = some i →
    step (s.withFetchWord 16 w) = exec i (s.withFetchWord 16 w)

/-- A step of a halted core answers the latched cause and so has no next state, and the status reported is that cause;
while not halted the status is what FAULT holds after the step (rules R112, R116, decision D9; the form of the answer is
log 8). -/
def Obligations.HaltedStepReportsTheLatchedCause : Prop :=
  ∀ s : State,
    (∀ f, s.fault = some f → step s = .fault f ∧ stepStatus s = some f) ∧
    (∀ t, step s = .next t → stepStatus s = t.fault)

/-- A step with PC above 0xFFE raises `FetchAddrFault`: FAULT takes it and nothing else changes (rules R57, R105, R111,
decisions D8 and D9). -/
def Obligations.FetchOutsideMemoryRaisesFetchAddrFault : Prop :=
  ∀ s : State, s.fault = none → 0xFFE < s.pc.toNat →
    step s = .next { s with fault := some .fetchAddrFault }

/-- A step that fetches a word matching no row of the opcode table raises `InvalidOpcode`: FAULT takes it and nothing else
changes (rules R54, R102, R111, decision D9). -/
def Obligations.WordOutsideTheTableRaisesInvalidOpcode : Prop :=
  ∀ s : State, s.fault = none → s.pc.toNat ≤ 0xFFE → (∀ row ∈ opcodeTable, row.matches (wordAtPc s) = false) →
    step s = .next { s with fault := some .invalidOpcode }

/-- Every step of a core that is not halted answers a next state: no instruction blocks, suspends or is refused
(rule R64). -/
def Obligations.RunningStepAlwaysAnswersANextState : Prop :=
  ∀ s : State, s.fault = none → ∃ t, step s = .next t

/-- Faults are precise: a step that ends with FAULT set has changed FAULT and nothing else, so PC still is the address of
the faulting instruction (rule R111, decision D9). -/
def Obligations.FaultingStepChangesOnlyFault : Prop :=
  ∀ (s t : State) (f : Fault), s.fault = none → step s = .next t → t.fault = some f →
    t = { s with fault := some f }

/-- 00EE on an empty stack and 2NNN on a full one raise their faults and change nothing else (rules R66, R68, R103, R104,
decision D2; "full" as at least `STACK_DEPTH` is log 10). -/
def Obligations.StackFaultsOnEmptyAndFull : Prop :=
  (∀ s : State, s.sp = 0 → exec .ret s = .next { s with fault := some .stackUnderflow }) ∧
  (∀ (nnn : Addr12) (s : State), s.params.stackDepth ≤ s.sp →
    exec (.call nnn) s = .next { s with fault := some .stackOverflow })

/-- DXYN, FX33, FX55 and FX65 raise `DataAddrFault`, with nothing read, written or drawn, when the last address of their
range exceeds 0xFFF (rules R31, R89, R98, R99, R100, R106, decisions D8 and D16). -/
def Obligations.RangesPastMemoryRaiseDataAddrFault : Prop :=
  ∀ (x y n : Nibble) (s : State),
    (n ≠ 0#4 → 0xFFF < s.i.toNat + n.toNat - 1 →
      exec (.drw x y n) s = .next { s with fault := some .dataAddrFault }) ∧
    (0xFFF < s.i.toNat + 2 → exec (.ldBcd x) s = .next { s with fault := some .dataAddrFault }) ∧
    (0xFFF < s.i.toNat + x.toNat → exec (.dumpRegs x) s = .next { s with fault := some .dataAddrFault }) ∧
    (0xFFF < s.i.toNat + x.toNat → exec (.loadRegs x) s = .next { s with fault := some .dataAddrFault })

/-- EX9E and EXA1 raise `KeyIndexFault` when VX exceeds 15 (rules R90, R91, R107, decision D14). -/
def Obligations.KeyNumbersAboveFifteenRaiseKeyIndexFault : Prop :=
  ∀ (x : Nibble) (s : State), 15 < (s.getV x).toNat →
    exec (.skp x) s = .next { s with fault := some .keyIndexFault } ∧
    exec (.sknp x) s = .next { s with fault := some .keyIndexFault }

/-- Every instruction, in every state that does not meet its fault condition, completes, raising nothing, and writes only
what the access matrix names (rules R23, R109, R110; the conditions are those of rules R103, R104, R106, R107). -/
def Obligations.EveryInstructionCompletesWithinTheAccessMatrix : Prop :=
  ∀ (i : Instr) (s : State), handlerFault i s = none → ∃ t, exec i s = .next t ∧ Frame (writesOf i) s t

/-! ### Invariants and whole-machine rules -/

/-- Every step keeps the invariant: memory and stack stay canonical, SP stays at most `STACK_DEPTH` with every entry in use
written, I stays at most 0x1000, PC at most 0x10FE (rules R12, R13, R14, R31). -/
def Obligations.StepKeepsTheInvariant : Prop :=
  ∀ s t : State, s.Inv → step s = .next t → t.Inv

/-- The state right after reset meets the invariant (rules R7, R24; the default parameters are log 6; that SP and I are 0
there is decision D6, log 7, a choice and not the source's). -/
def Obligations.ResetStateMeetsTheInvariant : Prop :=
  State.reset.Inv

/-- Every host move keeps the invariant, `load` of any length included (rules R120, R123, R127, R129). For `reset` this
rests on two choices: that SP and I are 0 after it is decision D6, log 7, and that the parameters stay is log 6. -/
def Obligations.HostMovesKeepTheInvariant : Prop :=
  ∀ (m : HostMove) (s : State), s.Inv → (hostMove m s).Inv

/-- No step changes the keys, the quirk bits or the parameters (rules R6, R18, R19, R61). -/
def Obligations.StepKeepsKeysQuirksAndParameters : Prop :=
  ∀ s t : State, step s = .next t →
    t.keys = s.keys ∧ t.qShift = s.qShift ∧ t.qJump = s.qJump ∧ t.qLdst = s.qLdst ∧ t.params = s.params

/-- The display is changed by no step but that of 00E0 or DXYN (rule R17). -/
def Obligations.DisplayChangesOnlyByClearAndDraw : Prop :=
  ∀ s t : State, step s = .next t → t.fb ≠ s.fb → Runs s .cls ∨ ∃ x y n, Runs s (.drw x y n)

/-- A byte of memory is changed by no step but that of FX33 or FX55 (rules R23, R35, R37). -/
def Obligations.MemoryChangesOnlyByBcdAndRegisterDump : Prop :=
  ∀ (s t : State) (a : Nat), step s = .next t → t.byteAt a ≠ s.byteAt a →
    ∃ x, Runs s (.ldBcd x) ∨ Runs s (.dumpRegs x)

/-- SP and the stack entries are changed by no step but that of 2NNN or 00EE (rule R14). -/
def Obligations.StackChangesOnlyByCallAndReturn : Prop :=
  ∀ s t : State, step s = .next t → (t.sp ≠ s.sp ∨ ∃ j, t.stackAt j ≠ s.stackAt j) →
    Runs s .ret ∨ ∃ nnn, Runs s (.call nnn)

/-- DT is changed by no step but that of FX15, ST by none but that of FX18 (rules R15, R61). -/
def Obligations.TimersChangeOnlyByTimerWrites : Prop :=
  ∀ s t : State, step s = .next t →
    (t.dt ≠ s.dt → ∃ x, Runs s (.ldDtVx x)) ∧ (t.st ≠ s.st → ∃ x, Runs s (.ldStVx x))

/-- No step reads ST: the same step from a state with another value in ST answers the same state but for ST. Only the host
observes it (rules R15, R95, R121). -/
def Obligations.NoStepReadsTheSoundTimer : Prop :=
  ∀ (s t : State) (b : Byte), step s = .next t → ∃ u, step (s.setSt b) = .next u ∧ u.setSt t.st = t

/-! ### Families 0, 1, 2 -/

/-- 00E0, and that word alone, unsets all 2048 pixels and changes nothing else but PC, VF included (rule R65). -/
def Obligations.ClearUnsetsEveryPixel : Prop :=
  (∀ w : Word, decodeWord w = .ok .cls ↔ w = 0x00E0#16) ∧
  ∀ s : State, ∃ t, exec .cls s = .next t ∧
    (∀ col row, col < 64 → row < 32 → t.pixel col row = false) ∧
    t.pc = s.pc + 2#16 ∧ Frame { fb := true } s t

/-- 00EE on a stack that is not empty pops the newest entry into PC, unmasked, and leaves the entry's value (rules R14, R66,
decision D20). -/
def Obligations.ReturnPopsTheNewestEntryIntoPc : Prop :=
  decodeWord 0x00EE#16 = .ok .ret ∧
  ∀ s : State, 0 < s.sp → ∃ t, exec .ret s = .next t ∧
    t.pc = s.stackAt (s.sp - 1) ∧ t.sp = s.sp - 1 ∧ (∀ j, t.stackAt j = s.stackAt j) ∧ Frame { stack := true } s t

/-- 1NNN sets PC to NNN and changes nothing else (rule R67). -/
def Obligations.JumpSetsPc : Prop :=
  ∀ (nnn : Addr12) (s : State), decodeWord (0x1#4 ++ nnn : Word) = .ok (.jp nnn) ∧
    ∃ t, exec (.jp nnn) s = .next t ∧ t.pc.toNat = nnn.toNat ∧ Frame {} s t

/-- 2NNN with room on the stack pushes the address of the next instruction at SP, increments SP and jumps to NNN; every
other entry keeps its value (rules R14, R68, decisions D2 and D20). -/
def Obligations.CallPushesTheNextAddressAndJumps : Prop :=
  ∀ (nnn : Addr12) (s : State), decodeWord (0x2#4 ++ nnn : Word) = .ok (.call nnn) ∧
    (s.sp < s.params.stackDepth → ∃ t, exec (.call nnn) s = .next t ∧
      t.pc.toNat = nnn.toNat ∧ t.sp = s.sp + 1 ∧
      (∀ j, t.stackAt j = if j = s.sp then s.pc + 2#16 else s.stackAt j) ∧ Frame { stack := true } s t)

/-- A return from any state with the stack a call left comes back to the instruction after the call, with SP as before it
(rules R14, R66, R68, decision D20). -/
def Obligations.ReturnAfterCallComesBack : Prop :=
  ∀ (nnn : Addr12) (s t u : State), s.sp < s.params.stackDepth → exec (.call nnn) s = .next t →
    u.sp = t.sp → (∀ j, u.stackAt j = t.stackAt j) →
    ∃ r, exec .ret u = .next r ∧ r.pc = s.pc + 2#16 ∧ r.sp = s.sp

/-! ### Families 3, 4, 5, 9 -/

/-- 3XNN skips one instruction exactly when VX is NN, 4XNN exactly when it is not; nothing but PC changes
(rules R69, R70). -/
def Obligations.SkipsOnImmediateComparison : Prop :=
  ∀ (x : Nibble) (nn : Byte) (s : State),
    decodeWord (0x3#4 ++ x ++ nn : Word) = .ok (.seImm x nn) ∧
    decodeWord (0x4#4 ++ x ++ nn : Word) = .ok (.sneImm x nn) ∧
    (∃ t, exec (.seImm x nn) s = .next t ∧
      t.pc = (if s.getV x = nn then s.pc + 4#16 else s.pc + 2#16) ∧ Frame {} s t) ∧
    (∃ t, exec (.sneImm x nn) s = .next t ∧
      t.pc = (if s.getV x = nn then s.pc + 2#16 else s.pc + 4#16) ∧ Frame {} s t)

/-- 5XY0 skips one instruction exactly when VX is VY, 9XY0 exactly when it is not; nothing but PC changes
(rules R71, R72). -/
def Obligations.SkipsOnRegisterComparison : Prop :=
  ∀ (x y : Nibble) (s : State),
    decodeWord (0x5#4 ++ x ++ y ++ 0x0#4 : Word) = .ok (.seReg x y) ∧
    decodeWord (0x9#4 ++ x ++ y ++ 0x0#4 : Word) = .ok (.sneReg x y) ∧
    (∃ t, exec (.seReg x y) s = .next t ∧
      t.pc = (if s.getV x = s.getV y then s.pc + 4#16 else s.pc + 2#16) ∧ Frame {} s t) ∧
    (∃ t, exec (.sneReg x y) s = .next t ∧
      t.pc = (if s.getV x = s.getV y then s.pc + 2#16 else s.pc + 4#16) ∧ Frame {} s t)

/-! ### Families 6, 7, 8 -/

/-- 6XNN writes NN to VX, whichever register that is (rule R73). -/
def Obligations.LoadImmediateWritesVx : Prop :=
  ∀ (x : Nibble) (nn : Byte) (s : State), decodeWord (0x6#4 ++ x ++ nn : Word) = .ok (.ldImm x nn) ∧
    ∃ t, exec (.ldImm x nn) s = .next t ∧ t.getV x = nn ∧ t.pc = s.pc + 2#16 ∧ Frame { v := regs [x] } s t

/-- 7XNN adds NN to VX modulo 256 and writes no flag (rule R74). -/
def Obligations.AddImmediateWrapsWithoutFlag : Prop :=
  ∀ (x : Nibble) (nn : Byte) (s : State), decodeWord (0x7#4 ++ x ++ nn : Word) = .ok (.addImm x nn) ∧
    ∃ t, exec (.addImm x nn) s = .next t ∧ (t.getV x).toNat = ((s.getV x).toNat + nn.toNat) % 256 ∧
      t.pc = s.pc + 2#16 ∧ Frame { v := regs [x] } s t

/-- 8XY0 copies VY to VX and writes no flag (rule R76). -/
def Obligations.LoadRegisterCopiesVyToVx : Prop :=
  ∀ (x y : Nibble) (s : State), decodeWord (0x8#4 ++ x ++ y ++ 0x0#4 : Word) = .ok (.ldReg x y) ∧
    ∃ t, exec (.ldReg x y) s = .next t ∧ t.getV x = s.getV y ∧ t.pc = s.pc + 2#16 ∧ Frame { v := regs [x] } s t

/-- 8XY1, 8XY2, 8XY3 write the bitwise or, and, exclusive or of VX and VY to VX, bit by bit, and write no flag
(rules R77, R78, R79). -/
def Obligations.LogicWritesTheBitwiseResultWithoutFlag : Prop :=
  ∀ (x y : Nibble) (s : State),
    decodeWord (0x8#4 ++ x ++ y ++ 0x1#4 : Word) = .ok (.orReg x y) ∧
    decodeWord (0x8#4 ++ x ++ y ++ 0x2#4 : Word) = .ok (.andReg x y) ∧
    decodeWord (0x8#4 ++ x ++ y ++ 0x3#4 : Word) = .ok (.xorReg x y) ∧
    (∃ t, exec (.orReg x y) s = .next t ∧
      (∀ k < 8, (t.getV x).getLsbD k = ((s.getV x).getLsbD k || (s.getV y).getLsbD k)) ∧
      t.pc = s.pc + 2#16 ∧ Frame { v := regs [x] } s t) ∧
    (∃ t, exec (.andReg x y) s = .next t ∧
      (∀ k < 8, (t.getV x).getLsbD k = ((s.getV x).getLsbD k && (s.getV y).getLsbD k)) ∧
      t.pc = s.pc + 2#16 ∧ Frame { v := regs [x] } s t) ∧
    (∃ t, exec (.xorReg x y) s = .next t ∧
      (∀ k < 8, (t.getV x).getLsbD k = ((s.getV x).getLsbD k ^^ (s.getV y).getLsbD k)) ∧
      t.pc = s.pc + 2#16 ∧ Frame { v := regs [x] } s t)

/-- 8XY4 adds VY to VX modulo 256 and sets VF to 1 exactly when the sum exceeds 255; with X = F the sum is lost and VF is
the flag (rule R80; the order for X = F is decision D11). -/
def Obligations.AddSetsVfOnUnsignedOverflow : Prop :=
  ∀ (x y : Nibble) (s : State), decodeWord (0x8#4 ++ x ++ y ++ 0x4#4 : Word) = .ok (.addReg x y) ∧
    ∃ t, exec (.addReg x y) s = .next t ∧
      (x ≠ vf → (t.getV x).toNat = ((s.getV x).toNat + (s.getV y).toNat) % 256) ∧
      (t.getV vf).toNat = (if 255 < (s.getV x).toNat + (s.getV y).toNat then 1 else 0) ∧
      t.pc = s.pc + 2#16 ∧ Frame { v := regs [x, vf] } s t

/-- 8XY5 subtracts VY from VX modulo 256 and sets VF to 1 exactly when VX is strictly greater; with X = F VF is the flag
(rule R81; the strict comparison is conflict C1, the order for X = F decision D11). -/
def Obligations.SubtractSetsVfWhenVxIsGreater : Prop :=
  ∀ (x y : Nibble) (s : State), decodeWord (0x8#4 ++ x ++ y ++ 0x5#4 : Word) = .ok (.subReg x y) ∧
    ∃ t, exec (.subReg x y) s = .next t ∧
      (x ≠ vf → (t.getV x).toNat = (256 + (s.getV x).toNat - (s.getV y).toNat) % 256) ∧
      (t.getV vf).toNat = (if (s.getV y).toNat < (s.getV x).toNat then 1 else 0) ∧
      t.pc = s.pc + 2#16 ∧ Frame { v := regs [x, vf] } s t

/-- 8XY6 writes half of VX, or of VY when `Q_SHIFT` is set, to VX and the bit shifted out to VF; with X = F VF is the flag
(rule R82; the order for X = F is decision D11). -/
def Obligations.ShiftRightHalvesAndSetsVfToTheLowBit : Prop :=
  ∀ (x y : Nibble) (s : State), decodeWord (0x8#4 ++ x ++ y ++ 0x6#4 : Word) = .ok (.shr x y) ∧
    ∃ t, exec (.shr x y) s = .next t ∧
      (x ≠ vf → (t.getV x).toNat = (if s.qShift = true then s.getV y else s.getV x).toNat / 2) ∧
      (t.getV vf).toNat = (if s.qShift = true then s.getV y else s.getV x).toNat % 2 ∧
      t.pc = s.pc + 2#16 ∧ Frame { v := regs [x, vf] } s t

/-- 8XY7 writes VY minus VX modulo 256 to VX and sets VF to 1 exactly when VY is strictly greater; with X = F VF is the flag
(rule R83; the strict comparison is conflict C1, the order for X = F decision D11). -/
def Obligations.ReverseSubtractSetsVfWhenVyIsGreater : Prop :=
  ∀ (x y : Nibble) (s : State), decodeWord (0x8#4 ++ x ++ y ++ 0x7#4 : Word) = .ok (.subn x y) ∧
    ∃ t, exec (.subn x y) s = .next t ∧
      (x ≠ vf → (t.getV x).toNat = (256 + (s.getV y).toNat - (s.getV x).toNat) % 256) ∧
      (t.getV vf).toNat = (if (s.getV x).toNat < (s.getV y).toNat then 1 else 0) ∧
      t.pc = s.pc + 2#16 ∧ Frame { v := regs [x, vf] } s t

/-- 8XYE writes twice VX, or VY when `Q_SHIFT` is set, modulo 256 to VX and the bit shifted out to VF; with X = F VF is the
flag (rule R84; the order for X = F is decision D11). -/
def Obligations.ShiftLeftDoublesAndSetsVfToTheHighBit : Prop :=
  ∀ (x y : Nibble) (s : State), decodeWord (0x8#4 ++ x ++ y ++ 0xE#4 : Word) = .ok (.shl x y) ∧
    ∃ t, exec (.shl x y) s = .next t ∧
      (x ≠ vf → (t.getV x).toNat = 2 * (if s.qShift = true then s.getV y else s.getV x).toNat % 256) ∧
      (t.getV vf).toNat = (if s.qShift = true then s.getV y else s.getV x).toNat / 128 ∧
      t.pc = s.pc + 2#16 ∧ Frame { v := regs [x, vf] } s t

/-! ### Families A, B, C -/

/-- ANNN sets I to NNN, zero-extended (rule R85). -/
def Obligations.LoadIndexSetsI : Prop :=
  ∀ (nnn : Addr12) (s : State), decodeWord (0xA#4 ++ nnn : Word) = .ok (.ldI nnn) ∧
    ∃ t, exec (.ldI nnn) s = .next t ∧ t.i.toNat = nnn.toNat ∧ t.pc = s.pc + 2#16 ∧ Frame { i := true } s t

/-- BNNN jumps to NNN plus V0, or plus VX with X the top nibble of NNN when `Q_JUMP` is set, unmasked (rule R86; that the
whole NNN is the base with the quirk on is decision D12). -/
def Obligations.JumpWithOffsetAddsV0OrVx : Prop :=
  ∀ (nnn : Addr12) (s : State),
    decodeWord (0xB#4 ++ nnn : Word) = .ok (.jpV0 (nnn.extractLsb' 8 4) nnn) ∧
    ∃ t, exec (.jpV0 (nnn.extractLsb' 8 4) nnn) s = .next t ∧
      t.pc.toNat = nnn.toNat + (if s.qJump = true then s.getV (nnn.extractLsb' 8 4) else s.getV 0x0#4).toNat ∧
      Frame {} s t

/-- CXNN writes the next free random byte and NN to VX, and the draw after it is another (rules R8, R87, decision D5; the
count of draws is the model's own, log 2). -/
def Obligations.RandomWritesAFreeByteMaskedByNn : Prop :=
  ∀ (x : Nibble) (nn : Byte) (s : State), decodeWord (0xC#4 ++ x ++ nn : Word) = .ok (.rnd x nn) ∧
    ∃ t, exec (.rnd x nn) s = .next t ∧ t.getV x = Config.rand s.randDraws &&& nn ∧ t.getV x &&& ~~~nn = 0#8 ∧
      t.randDraws = s.randDraws + 1 ∧ t.pc = s.pc + 2#16 ∧ Frame { v := regs [x], rand := true } s t

/-! ### Family D -/

/-- DXYN with its range inside memory exclusive-ors every sprite bit that lands on the display into its pixel, clipped and
not wrapped, from column VX mod 64 and row VY mod 32 of the state before, and sets VF to 1 exactly when a set pixel was
cleared (rules R88, R89; the bit order is decision D15, N = 0 decision D16, X = F or Y = F decision D11). -/
def Obligations.DrawXorsTheSpriteAndSetsVfOnCollision : Prop :=
  ∀ (x y n : Nibble) (s : State), decodeWord (0xD#4 ++ x ++ y ++ n : Word) = .ok (.drw x y n) ∧
    (n = 0#4 ∨ s.i.toNat + n.toNat - 1 ≤ 0xFFF → ∃ t, exec (.drw x y n) s = .next t ∧
      (∀ col row, col < 64 → row < 32 → t.pixel col row = (s.pixel col row ^^
        spriteCovers s s.i.toNat ((s.getV x).toNat % 64) ((s.getV y).toNat % 32) n.toNat col row)) ∧
      (t.getV vf = 1#8 ↔ ∃ col row, col < 64 ∧ row < 32 ∧ s.pixel col row = true ∧
        spriteCovers s s.i.toNat ((s.getV x).toNat % 64) ((s.getV y).toNat % 32) n.toNat col row = true) ∧
      (t.getV vf = 0#8 ∨ t.getV vf = 1#8) ∧
      t.pc = s.pc + 2#16 ∧ Frame { v := regs [vf], fb := true } s t)

/-- Drawing the same sprite twice at the same place restores every pixel of the display (rule R89; X and Y are not F, whose
register the first draw overwrites). -/
def Obligations.DrawingTwiceRestoresTheDisplay : Prop :=
  ∀ (x y n : Nibble) (s : State), x ≠ vf → y ≠ vf → (n = 0#4 ∨ s.i.toNat + n.toNat - 1 ≤ 0xFFF) →
    ∃ t u, exec (.drw x y n) s = .next t ∧ exec (.drw x y n) t = .next u ∧
      ∀ col row, col < 64 → row < 32 → u.pixel col row = s.pixel col row

/-! ### Family E -/

/-- EX9E skips one instruction exactly when key VX is down, EXA1 exactly when it is up, for VX at most 15; nothing but PC
changes (rules R90, R91; VX above 15 is decision D14). -/
def Obligations.KeySkipsFollowTheKeyInVx : Prop :=
  ∀ (x : Nibble) (s : State),
    decodeWord (0xE#4 ++ x ++ 0x9E#8 : Word) = .ok (.skp x) ∧
    decodeWord (0xE#4 ++ x ++ 0xA1#8 : Word) = .ok (.sknp x) ∧
    ((s.getV x).toNat ≤ 15 →
      (∃ t, exec (.skp x) s = .next t ∧
        t.pc = (if s.keyDown (s.getV x).toNat = true then s.pc + 4#16 else s.pc + 2#16) ∧ Frame {} s t) ∧
      (∃ t, exec (.sknp x) s = .next t ∧
        t.pc = (if s.keyDown (s.getV x).toNat = true then s.pc + 2#16 else s.pc + 4#16) ∧ Frame {} s t))

/-! ### Family F -/

/-- FX07 copies DT to VX (rule R92). -/
def Obligations.TimerReadCopiesDtToVx : Prop :=
  ∀ (x : Nibble) (s : State), decodeWord (0xF#4 ++ x ++ 0x07#8 : Word) = .ok (.ldVxDt x) ∧
    ∃ t, exec (.ldVxDt x) s = .next t ∧ t.getV x = s.dt ∧ t.pc = s.pc + 2#16 ∧ Frame { v := regs [x] } s t

/-- FX0A writes the lowest-numbered key that is down to VX and goes on; with no key down the whole state is as before, so
the same instruction runs again (rule R93). -/
def Obligations.KeyWaitTakesTheLowestKeyOrSpins : Prop :=
  ∀ (x : Nibble) (s : State), decodeWord (0xF#4 ++ x ++ 0x0A#8 : Word) = .ok (.ldVxKey x) ∧
    (∀ k < 16, s.keyDown k = true → (∀ j < k, s.keyDown j = false) →
      ∃ t, exec (.ldVxKey x) s = .next t ∧ (t.getV x).toNat = k ∧ t.pc = s.pc + 2#16 ∧
        Frame { v := regs [x] } s t) ∧
    ((∀ k < 16, s.keyDown k = false) → exec (.ldVxKey x) s = .next s)

/-- FX15 copies VX to DT and FX18 copies VX to ST, and each leaves the other timer (rules R94, R95). -/
def Obligations.TimerWritesCopyVx : Prop :=
  ∀ (x : Nibble) (s : State),
    decodeWord (0xF#4 ++ x ++ 0x15#8 : Word) = .ok (.ldDtVx x) ∧
    decodeWord (0xF#4 ++ x ++ 0x18#8 : Word) = .ok (.ldStVx x) ∧
    (∃ t, exec (.ldDtVx x) s = .next t ∧ t.dt = s.getV x ∧ t.pc = s.pc + 2#16 ∧ Frame { dt := true } s t) ∧
    (∃ t, exec (.ldStVx x) s = .next t ∧ t.st = s.getV x ∧ t.pc = s.pc + 2#16 ∧ Frame { st := true } s t)

/-- FX1E adds VX to I, masked to 12 bits, and leaves VF (rule R96; that VF is not written is decision D10). -/
def Obligations.AddToIndexMasksToTwelveBits : Prop :=
  ∀ (x : Nibble) (s : State), decodeWord (0xF#4 ++ x ++ 0x1E#8 : Word) = .ok (.addI x) ∧
    ∃ t, exec (.addI x) s = .next t ∧ t.i.toNat = (s.i.toNat + (s.getV x).toNat) % 4096 ∧
      t.pc = s.pc + 2#16 ∧ Frame { i := true } s t

/-- FX29 sets I to the address of the glyph for the low nibble of VX, under legal parameters (rule R97, decision D3), where
the five bytes of that glyph stand in a memory that lists none of their addresses (rule R16). -/
def Obligations.FontLookupPointsIAtTheGlyph : Prop :=
  ∀ (x : Nibble) (s : State), decodeWord (0xF#4 ++ x ++ 0x29#8 : Word) = .ok (.ldFont x) ∧
    (s.params.wf → ∃ t, exec (.ldFont x) s = .next t ∧
      t.i.toNat = s.params.fontBase + 5 * ((s.getV x).toNat % 16) ∧
      (∀ r < 5, Sparse.get? s.mem (t.i.toNat + r) = none →
        some (t.byteAt (t.i.toNat + r)) = s.params.fontData[5 * ((s.getV x).toNat % 16) + r]?) ∧
      t.pc = s.pc + 2#16 ∧ Frame { i := true } s t)

/-- FX33 with its range inside memory stores the hundreds, tens and ones digits of VX at I, I+1, I+2 and leaves I and every
other byte (rule R98; the range is decision D8). -/
def Obligations.BcdStoresThreeDigitsAtI : Prop :=
  ∀ (x : Nibble) (s : State), decodeWord (0xF#4 ++ x ++ 0x33#8 : Word) = .ok (.ldBcd x) ∧
    (s.i.toNat + 2 ≤ 0xFFF → ∃ t, exec (.ldBcd x) s = .next t ∧
      (t.byteAt s.i.toNat).toNat = (s.getV x).toNat / 100 ∧
      (t.byteAt (s.i.toNat + 1)).toNat = (s.getV x).toNat / 10 % 10 ∧
      (t.byteAt (s.i.toNat + 2)).toNat = (s.getV x).toNat % 10 ∧
      (∀ a, a < s.i.toNat ∨ s.i.toNat + 2 < a → t.byteAt a = s.byteAt a) ∧
      t.pc = s.pc + 2#16 ∧ Frame { mem := true } s t)

/-- FX55 with its range inside memory stores V0..VX at I..I+X, leaves every other byte and every register, and increments I
by X+1, unmasked, exactly when `Q_LDST` is set (rule R99; the range is decision D8, the width decision D17). -/
def Obligations.RegisterDumpStoresV0ToVxAtI : Prop :=
  ∀ (x : Nibble) (s : State), decodeWord (0xF#4 ++ x ++ 0x55#8 : Word) = .ok (.dumpRegs x) ∧
    (s.i.toNat + x.toNat ≤ 0xFFF → ∃ t, exec (.dumpRegs x) s = .next t ∧
      (∀ r : Nibble, r.toNat ≤ x.toNat → t.byteAt (s.i.toNat + r.toNat) = s.getV r) ∧
      (∀ a, a < s.i.toNat ∨ s.i.toNat + x.toNat < a → t.byteAt a = s.byteAt a) ∧
      t.i.toNat = (if s.qLdst = true then s.i.toNat + x.toNat + 1 else s.i.toNat) ∧
      t.pc = s.pc + 2#16 ∧ Frame { mem := true, i := true } s t)

/-- FX65 with its range inside memory loads V0..VX from I..I+X, leaves memory and the registers above VX, and increments I
by X+1, unmasked, exactly when `Q_LDST` is set (rule R100; the range is decision D8, the width decision D17). -/
def Obligations.RegisterLoadReadsV0ToVxFromI : Prop :=
  ∀ (x : Nibble) (s : State), decodeWord (0xF#4 ++ x ++ 0x65#8 : Word) = .ok (.loadRegs x) ∧
    (s.i.toNat + x.toNat ≤ 0xFFF → ∃ t, exec (.loadRegs x) s = .next t ∧
      (∀ r : Nibble, r.toNat ≤ x.toNat → t.getV r = s.byteAt (s.i.toNat + r.toNat)) ∧
      t.i.toNat = (if s.qLdst = true then s.i.toNat + x.toNat + 1 else s.i.toNat) ∧
      t.pc = s.pc + 2#16 ∧ Frame { v := regsUpTo x, i := true } s t)

/-! ### Host moves -/

/-- `tick_delay` and `tick_sound` take 1 from their timer, 0 stays 0, and nothing else changes (rule R120). -/
def Obligations.TicksCountDownAndSaturateAtZero : Prop :=
  ∀ s : State,
    (tickDelay s).dt.toNat = s.dt.toNat - 1 ∧ (tickDelay s).pc = s.pc ∧ Frame { dt := true } s (tickDelay s) ∧
    (tickSound s).st.toNat = s.st.toNat - 1 ∧ (tickSound s).pc = s.pc ∧ Frame { st := true } s (tickSound s)

/-- `set_key` sets the one key and leaves every other and the rest of the state (rule R123, decision D27). -/
def Obligations.SetKeyWritesOneKeyBit : Prop :=
  ∀ (k : Nibble) (down : Bool) (s : State),
    (∀ j < 16, (setKey k down s).keyDown j = if j = k.toNat then down else s.keyDown j) ∧
    setKey k down s = { s with keys := (setKey k down s).keys }

/-- `load` of at most 3584 bytes copies them to 0x200 and up and changes nothing else; a longer one is rejected and changes
nothing (rule R129, decision D22). -/
def Obligations.LoadCopiesTheImageOrIsRejected : Prop :=
  ∀ (bytes : List Byte) (s : State),
    (bytes.length ≤ 3584 → (load bytes s).1 = .ok ∧ (load bytes s).2.pc = s.pc ∧
      (∀ k (h : k < bytes.length), (load bytes s).2.byteAt (0x200 + k) = bytes[k]) ∧
      (∀ a, a < 0x200 ∨ 0x200 + bytes.length ≤ a → (load bytes s).2.byteAt a = s.byteAt a) ∧
      Frame { mem := true } s (load bytes s).2) ∧
    (3584 < bytes.length → load bytes s = (.rejected, s))

/-- The host's `reset` leaves PC at 0x200, the font in memory, the quirk bits as given, FAULT clear, and V, I, SP, DT, ST,
the display and the keys at 0, from every state (rules R24, R127; the zeros are decisions D6 and D9, log 7; that the parameters
stay is log 6). -/
def Obligations.HostResetLeavesTheResetValues : Prop :=
  ∀ (qs qj ql : Bool) (s : State),
    (hostReset qs qj ql s).pc = 0x0200#16 ∧
    (∀ k, k < 80 → some ((hostReset qs qj ql s).byteAt (s.params.fontBase + k)) = s.params.fontData[k]?) ∧
    (hostReset qs qj ql s).qShift = qs ∧ (hostReset qs qj ql s).qJump = qj ∧ (hostReset qs qj ql s).qLdst = ql ∧
    (hostReset qs qj ql s).params = s.params ∧ (hostReset qs qj ql s).faultReg = 0#3 ∧
    (∀ r, (hostReset qs qj ql s).getV r = 0x00#8) ∧ (hostReset qs qj ql s).i = 0x0000#16 ∧
    (hostReset qs qj ql s).sp = 0 ∧ (hostReset qs qj ql s).dt = 0x00#8 ∧ (hostReset qs qj ql s).st = 0x00#8 ∧
    (∀ col row, (hostReset qs qj ql s).pixel col row = false) ∧ (∀ k, (hostReset qs qj ql s).keyDown k = false)

/-- After `reset` and the `load` of an image that begins with the bytes `hi`, `lo`, the first step runs the instruction of
the word `hi lo` at 0x200 (rules R128, R129, R130; the advance of PC to 0x202 is inside the meaning, log 11). -/
def Obligations.FirstStepAfterLoadRunsTheFirstWord : Prop :=
  ∀ (qs qj ql : Bool) (s : State) (hi lo : Byte) (rest : List Byte) (i : Instr), rest.length ≤ 3582 →
    decodeWord (hi ++ lo : Word) = .ok i →
    (load (hi :: lo :: rest) (hostReset qs qj ql s)).2.pc = 0x0200#16 ∧
    step (load (hi :: lo :: rest) (hostReset qs qj ql s)).2 =
      exec i (load (hi :: lo :: rest) (hostReset qs qj ql s)).2
end

