-- ==== Sys2Proof/Laws/Decode.lean ====
section
/-! SUPPORT. The fields of an assembled word, format by format (spec/30_encoding.md rules R47, R49), and a word assembled
from its own fields. -/

namespace Sys2Proof

/-! ### Reading the fields of an assembled word -/

@[simp] theorem fieldOp_wordNNN (op : Nibble) (nnn : Addr12) : fieldOp (wordNNN op nnn) = op := by
  unfold fieldOp wordNNN
  simp only [BitVec.extractLsb'_append_eq_ite]
  simp

@[simp] theorem fieldNNN_wordNNN (op : Nibble) (nnn : Addr12) : fieldNNN (wordNNN op nnn) = nnn := by
  unfold fieldNNN wordNNN
  simp only [BitVec.extractLsb'_append_eq_ite]
  simp

@[simp] theorem fieldX_wordNNN (op : Nibble) (nnn : Addr12) : fieldX (wordNNN op nnn) = nnn.extractLsb' 8 4 := by
  unfold fieldX wordNNN
  simp only [BitVec.extractLsb'_append_eq_ite]
  simp

@[simp] theorem fieldOp_wordXNN (op x : Nibble) (nn : Byte) : fieldOp (wordXNN op x nn) = op := by
  unfold fieldOp wordXNN
  simp only [BitVec.extractLsb'_append_eq_ite]
  simp

@[simp] theorem fieldX_wordXNN (op x : Nibble) (nn : Byte) : fieldX (wordXNN op x nn) = x := by
  unfold fieldX wordXNN
  simp only [BitVec.extractLsb'_append_eq_ite]
  simp

@[simp] theorem fieldNN_wordXNN (op x : Nibble) (nn : Byte) : fieldNN (wordXNN op x nn) = nn := by
  unfold fieldNN wordXNN
  simp only [BitVec.extractLsb'_append_eq_ite]
  simp

@[simp] theorem fieldOp_wordXYN (op x y n : Nibble) : fieldOp (wordXYN op x y n) = op := by
  unfold fieldOp wordXYN
  simp only [BitVec.extractLsb'_append_eq_ite]
  simp

@[simp] theorem fieldX_wordXYN (op x y n : Nibble) : fieldX (wordXYN op x y n) = x := by
  unfold fieldX wordXYN
  simp only [BitVec.extractLsb'_append_eq_ite]
  simp

@[simp] theorem fieldY_wordXYN (op x y n : Nibble) : fieldY (wordXYN op x y n) = y := by
  unfold fieldY wordXYN
  simp only [BitVec.extractLsb'_append_eq_ite]
  simp

@[simp] theorem fieldN_wordXYN (op x y n : Nibble) : fieldN (wordXYN op x y n) = n := by
  unfold fieldN wordXYN
  simp only [BitVec.extractLsb'_append_eq_ite]
  simp

/-! ### Assembling a word from its fields -/

theorem append_extract {m n k : Nat} (w : BitVec k) (lo : Nat) :
    w.extractLsb' (lo + n) m ++ w.extractLsb' lo n = w.extractLsb' lo (m + n) := by
  apply BitVec.eq_of_getLsbD_eq
  intro j hj
  simp only [BitVec.getLsbD_append, BitVec.getLsbD_extractLsb']
  by_cases h : j < n
  · simp [h, hj]
  · simp [h, hj, show j - n < m by omega, show lo + n + (j - n) = lo + j by omega]

theorem wordNNN_fields (w : Word) : wordNNN (fieldOp w) (fieldNNN w) = w := by
  have h := append_extract (m := 4) (n := 12) w 0
  simpa [wordNNN, fieldOp, fieldNNN] using h

theorem wordXNN_fields (w : Word) : wordXNN (fieldOp w) (fieldX w) (fieldNN w) = w := by
  have h₁ := append_extract (m := 4) (n := 4) w 8
  have h₂ := append_extract (m := 8) (n := 8) w 0
  simp only [wordXNN, fieldOp, fieldX, fieldNN]
  rw [h₁]
  simpa using h₂

theorem wordXYN_fields (w : Word) : wordXYN (fieldOp w) (fieldX w) (fieldY w) (fieldN w) = w := by
  have h₁ := append_extract (m := 4) (n := 4) w 8
  have h₂ := append_extract (m := 8) (n := 4) w 4
  have h₃ := append_extract (m := 12) (n := 4) w 0
  simp only [wordXYN, fieldOp, fieldX, fieldY, fieldN]
  rw [h₁, h₂]
  simpa using h₃

/-- The two bytes of an assembled word, high byte first. -/
theorem wordOfBytes_split (w : Word) : wordOfBytes (w.extractLsb' 8 8) (w.extractLsb' 0 8) = w := by
  have h := append_extract (m := 8) (n := 8) w 0
  simpa [wordOfBytes] using h

/-! ### Masking an assembled word (rule R53's masks) -/

theorem append_and_append' {m n : Nat} (a b : BitVec m) (c d : BitVec n) :
    (a ++ c) &&& (b ++ d) = (a &&& b) ++ (c &&& d) := by
  apply BitVec.eq_of_getLsbD_eq
  intro j _
  simp only [BitVec.getLsbD_and, BitVec.getLsbD_append]
  split <;> rfl

theorem nibble_and_F (a : Nibble) : a &&& 0xF#4 = a := BitVec.and_allOnes

theorem byte_and_FF (a : Byte) : a &&& 0xFF#8 = a := BitVec.and_allOnes

theorem wordNNN_mask (op : Nibble) (nnn : Addr12) : wordNNN op nnn &&& 0xF000#16 = wordNNN op 0#12 := by
  refine (congrArg _ (show (0xF000#16 : Word) = 0xF#4 ++ 0#12 from rfl)).trans ?_
  unfold wordNNN
  erw [append_and_append']
  rw [nibble_and_F, BitVec.and_zero]

theorem wordXNN_mask (op x : Nibble) (nn : Byte) : wordXNN op x nn &&& 0xF000#16 = wordXNN op 0#4 0#8 := by
  refine (congrArg _ (show (0xF000#16 : Word) = 0xF#4 ++ 0#4 ++ 0#8 from rfl)).trans ?_
  unfold wordXNN
  erw [append_and_append', append_and_append']
  rw [nibble_and_F, BitVec.and_zero, BitVec.and_zero]

theorem wordX_mask (op x : Nibble) (nn : Byte) : wordXNN op x nn &&& 0xF0FF#16 = wordXNN op 0#4 nn := by
  refine (congrArg _ (show (0xF0FF#16 : Word) = 0xF#4 ++ 0#4 ++ 0xFF#8 from rfl)).trans ?_
  unfold wordXNN
  erw [append_and_append', append_and_append']
  rw [nibble_and_F, byte_and_FF, BitVec.and_zero]

theorem wordXYN_mask (op x y n : Nibble) : wordXYN op x y n &&& 0xF000#16 = wordXYN op 0#4 0#4 0#4 := by
  refine (congrArg _ (show (0xF000#16 : Word) = 0xF#4 ++ 0#4 ++ 0#4 ++ 0#4 from rfl)).trans ?_
  unfold wordXYN
  erw [append_and_append', append_and_append', append_and_append']
  rw [nibble_and_F, BitVec.and_zero, BitVec.and_zero, BitVec.and_zero]

theorem wordXY_mask (op x y n : Nibble) : wordXYN op x y n &&& 0xF00F#16 = wordXYN op 0#4 0#4 n := by
  refine (congrArg _ (show (0xF00F#16 : Word) = 0xF#4 ++ 0#4 ++ 0#4 ++ 0xF#4 from rfl)).trans ?_
  unfold wordXYN
  erw [append_and_append', append_and_append', append_and_append']
  rw [nibble_and_F, nibble_and_F, BitVec.and_zero, BitVec.and_zero]

end Sys2Proof
end

