-- ==== Sys2Proof/Laws/Display.lean ====
section
/-! SUPPORT. The display operations, pixel by pixel. -/

namespace Sys2Proof.Machine

theorem Display.pixel_clear (col row : Nat) : Display.pixel Display.clear col row = false := by
  unfold Display.pixel Display.clear
  by_cases h : row < 32 <;> simp [h]

/-- A flip of a pixel on the display changes that pixel only. -/
theorem Display.pixel_flip (fb : Display) {col row : Nat} (hc : col < 64) (hr : row < 32) (col' row' : Nat) :
    Display.pixel (Display.flip fb col row) col' row' =
      (Display.pixel fb col' row' ^^ decide (col' = col ∧ row' = row)) := by
  unfold Display.pixel Display.flip
  by_cases h : row' = row
  · subst h
    simp only [Vector.getElem?_setIfInBounds_self, hr, if_true, Option.getD_some, BitVec.getLsbD_xor, and_true]
    congr 1
    simp only [BitVec.getLsbD_shiftLeft, BitVec.getLsbD_one]
    by_cases hcc : col' = col
    · subst hcc
      simp [hc]
    · have : ¬ (col ≤ col' ∧ col' - col = 0) := by omega
      simp [hcc]
      omega
  · simp [Vector.getElem?_setIfInBounds_ne (Ne.symm h), h]

end Sys2Proof.Machine
end

