-- ==== Sys2Proof/Laws/Sparse.lean ====
section
/-! SUPPORT. Reading after writing and the canonical form of sparse data, once for memory and call stack. -/

namespace Sys2Proof.Machine

variable {α : Type}

theorem Sparse.get?_put (l : List (Nat × α)) (a c : Nat) (b : α) :
    Sparse.get? (Sparse.put l a b) c = if c = a then some b else Sparse.get? l c := by
  induction l with
  | nil => simp [Sparse.put, Sparse.get?, eq_comm]
  | cons d rest ih =>
    by_cases hc : c = a
    · subst hc
      rcases Nat.lt_trichotomy c d.1 with h | h | h
      · simp [Sparse.put, Sparse.get?, h]
      · simp [Sparse.put, Sparse.get?, h]
      · simp [Sparse.put, Sparse.get?, ih, Nat.lt_asymm h, h.ne, h.ne']
    · have hc' : a ≠ c := Ne.symm hc
      rcases Nat.lt_trichotomy a d.1 with h | h | h
      · simp [Sparse.put, Sparse.get?, h, hc, hc']
      · subst h
        simp [Sparse.put, Sparse.get?, hc, hc']
      · simp [Sparse.put, Sparse.get?, ih, Nat.lt_asymm h, h.ne', hc]

theorem Sparse.get?_erase (l : List (Nat × α)) (a c : Nat) :
    Sparse.get? (Sparse.erase l a) c = if c = a then none else Sparse.get? l c := by
  induction l with
  | nil => simp [Sparse.erase, Sparse.get?]
  | cons d rest ih =>
    simp only [Sparse.erase]
    split_ifs with h₁ h₂ <;> simp_all [Sparse.get?]
    all_goals (intro h; omega)

/-- Where the entries of a `put` come from. -/
theorem Sparse.mem_put {l : List (Nat × α)} {a : Nat} {b : α} {e : Nat × α} (h : e ∈ Sparse.put l a b) :
    e = (a, b) ∨ e ∈ l := by
  induction l with
  | nil => simpa [Sparse.put] using h
  | cons d rest ih =>
    simp only [Sparse.put] at h
    split_ifs at h with h₁ h₂
    · simpa using h
    · simp only [List.mem_cons] at h ⊢
      tauto
    · rcases List.mem_cons.1 h with rfl | h
      · simp
      · rcases ih h with h | h <;> simp [h]

/-- Where the entries of an `erase` come from. -/
theorem Sparse.mem_erase {l : List (Nat × α)} {a : Nat} {e : Nat × α} (h : e ∈ Sparse.erase l a) : e ∈ l := by
  induction l with
  | nil => simp [Sparse.erase] at h
  | cons d rest ih =>
    simp only [Sparse.erase] at h
    split_ifs at h with h₁
    · exact List.mem_cons_of_mem _ (ih h)
    · rcases List.mem_cons.1 h with rfl | h
      · simp
      · exact List.mem_cons_of_mem _ (ih h)

theorem Sparse.rising_put {l : List (Nat × α)} (h : Sparse.Rising l) (a : Nat) (b : α) :
    Sparse.Rising (Sparse.put l a b) := by
  induction l with
  | nil => simp [Sparse.put]
  | cons d rest ih =>
    obtain ⟨hd, hr⟩ := List.pairwise_cons.1 h
    simp only [Sparse.put]
    split_ifs with h₁ h₂
    · refine List.pairwise_cons.2 ⟨fun e he => ?_, h⟩
      rcases List.mem_cons.1 he with rfl | he
      · exact h₁
      · exact lt_trans h₁ (hd e he)
    · subst h₂
      exact List.pairwise_cons.2 ⟨hd, hr⟩
    · refine List.pairwise_cons.2 ⟨fun e he => ?_, ih hr⟩
      rcases Sparse.mem_put he with rfl | he
      · show d.1 < a
        omega
      · exact hd e he

theorem Sparse.rising_erase {l : List (Nat × α)} (h : Sparse.Rising l) (a : Nat) :
    Sparse.Rising (Sparse.erase l a) := by
  induction l with
  | nil => simp [Sparse.erase]
  | cons d rest ih =>
    obtain ⟨hd, hr⟩ := List.pairwise_cons.1 h
    simp only [Sparse.erase]
    split_ifs with h₁
    · exact ih hr
    · exact List.pairwise_cons.2 ⟨fun e he => hd e (Sparse.mem_erase he), ih hr⟩

end Sys2Proof.Machine
end

