-- ==== Sys2Proof/Laws/State.lean ====
section
/-! SUPPORT. What each update of the state leaves in each field, and what the accessors read after an update that does not
touch what they read: one lemma per field per update. -/

namespace Sys2Proof.Machine

/-! ### `setV` -/

@[simp] theorem State.setV_v (s : State) (x : Nibble) (b : Byte) : (s.setV x b).v = s.v.set x.toNat b x.isLt := rfl
@[simp] theorem State.setV_pc (s : State) (x : Nibble) (b : Byte) : (s.setV x b).pc = s.pc := rfl
@[simp] theorem State.setV_i (s : State) (x : Nibble) (b : Byte) : (s.setV x b).i = s.i := rfl
@[simp] theorem State.setV_sp (s : State) (x : Nibble) (b : Byte) : (s.setV x b).sp = s.sp := rfl
@[simp] theorem State.setV_stack (s : State) (x : Nibble) (b : Byte) : (s.setV x b).stack = s.stack := rfl
@[simp] theorem State.setV_dt (s : State) (x : Nibble) (b : Byte) : (s.setV x b).dt = s.dt := rfl
@[simp] theorem State.setV_st (s : State) (x : Nibble) (b : Byte) : (s.setV x b).st = s.st := rfl
@[simp] theorem State.setV_mem (s : State) (x : Nibble) (b : Byte) : (s.setV x b).mem = s.mem := rfl
@[simp] theorem State.setV_fb (s : State) (x : Nibble) (b : Byte) : (s.setV x b).fb = s.fb := rfl
@[simp] theorem State.setV_keys (s : State) (x : Nibble) (b : Byte) : (s.setV x b).keys = s.keys := rfl
@[simp] theorem State.setV_qShift (s : State) (x : Nibble) (b : Byte) : (s.setV x b).qShift = s.qShift := rfl
@[simp] theorem State.setV_qJump (s : State) (x : Nibble) (b : Byte) : (s.setV x b).qJump = s.qJump := rfl
@[simp] theorem State.setV_qLdst (s : State) (x : Nibble) (b : Byte) : (s.setV x b).qLdst = s.qLdst := rfl
@[simp] theorem State.setV_fault (s : State) (x : Nibble) (b : Byte) : (s.setV x b).fault = s.fault := rfl
@[simp] theorem State.setV_params (s : State) (x : Nibble) (b : Byte) : (s.setV x b).params = s.params := rfl
@[simp] theorem State.setV_epoch (s : State) (x : Nibble) (b : Byte) : (s.setV x b).epoch = s.epoch := rfl
@[simp] theorem State.setV_randDraws (s : State) (x : Nibble) (b : Byte) : (s.setV x b).randDraws = s.randDraws := rfl
@[simp] theorem State.setV_byteAt (s : State) (x : Nibble) (b : Byte) (c : Nat) : (s.setV x b).byteAt c = s.byteAt c := rfl
@[simp] theorem State.setV_stackAt (s : State) (x : Nibble) (b : Byte) (j : Nat) : (s.setV x b).stackAt j = s.stackAt j := rfl
@[simp] theorem State.setV_pixel (s : State) (x : Nibble) (b : Byte) (col row : Nat) : (s.setV x b).pixel col row = s.pixel col row := rfl
@[simp] theorem State.setV_keyDown (s : State) (x : Nibble) (b : Byte) (k : Nat) : (s.setV x b).keyDown k = s.keyDown k := rfl

/-! ### `setVs` -/

@[simp] theorem State.setVs_v (s : State) (bs : List Byte) : (s.setVs bs).v = Vector.ofFn fun k : Fin 16 => bs[k.val]?.getD s.v[k] := rfl
@[simp] theorem State.setVs_pc (s : State) (bs : List Byte) : (s.setVs bs).pc = s.pc := rfl
@[simp] theorem State.setVs_i (s : State) (bs : List Byte) : (s.setVs bs).i = s.i := rfl
@[simp] theorem State.setVs_sp (s : State) (bs : List Byte) : (s.setVs bs).sp = s.sp := rfl
@[simp] theorem State.setVs_stack (s : State) (bs : List Byte) : (s.setVs bs).stack = s.stack := rfl
@[simp] theorem State.setVs_dt (s : State) (bs : List Byte) : (s.setVs bs).dt = s.dt := rfl
@[simp] theorem State.setVs_st (s : State) (bs : List Byte) : (s.setVs bs).st = s.st := rfl
@[simp] theorem State.setVs_mem (s : State) (bs : List Byte) : (s.setVs bs).mem = s.mem := rfl
@[simp] theorem State.setVs_fb (s : State) (bs : List Byte) : (s.setVs bs).fb = s.fb := rfl
@[simp] theorem State.setVs_keys (s : State) (bs : List Byte) : (s.setVs bs).keys = s.keys := rfl
@[simp] theorem State.setVs_qShift (s : State) (bs : List Byte) : (s.setVs bs).qShift = s.qShift := rfl
@[simp] theorem State.setVs_qJump (s : State) (bs : List Byte) : (s.setVs bs).qJump = s.qJump := rfl
@[simp] theorem State.setVs_qLdst (s : State) (bs : List Byte) : (s.setVs bs).qLdst = s.qLdst := rfl
@[simp] theorem State.setVs_fault (s : State) (bs : List Byte) : (s.setVs bs).fault = s.fault := rfl
@[simp] theorem State.setVs_params (s : State) (bs : List Byte) : (s.setVs bs).params = s.params := rfl
@[simp] theorem State.setVs_epoch (s : State) (bs : List Byte) : (s.setVs bs).epoch = s.epoch := rfl
@[simp] theorem State.setVs_randDraws (s : State) (bs : List Byte) : (s.setVs bs).randDraws = s.randDraws := rfl
@[simp] theorem State.setVs_byteAt (s : State) (bs : List Byte) (c : Nat) : (s.setVs bs).byteAt c = s.byteAt c := rfl
@[simp] theorem State.setVs_stackAt (s : State) (bs : List Byte) (j : Nat) : (s.setVs bs).stackAt j = s.stackAt j := rfl
@[simp] theorem State.setVs_pixel (s : State) (bs : List Byte) (col row : Nat) : (s.setVs bs).pixel col row = s.pixel col row := rfl
@[simp] theorem State.setVs_keyDown (s : State) (bs : List Byte) (k : Nat) : (s.setVs bs).keyDown k = s.keyDown k := rfl

/-! ### `setPc` -/

@[simp] theorem State.setPc_v (s : State) (a : Word) : (s.setPc a).v = s.v := rfl
@[simp] theorem State.setPc_pc (s : State) (a : Word) : (s.setPc a).pc = a := rfl
@[simp] theorem State.setPc_i (s : State) (a : Word) : (s.setPc a).i = s.i := rfl
@[simp] theorem State.setPc_sp (s : State) (a : Word) : (s.setPc a).sp = s.sp := rfl
@[simp] theorem State.setPc_stack (s : State) (a : Word) : (s.setPc a).stack = s.stack := rfl
@[simp] theorem State.setPc_dt (s : State) (a : Word) : (s.setPc a).dt = s.dt := rfl
@[simp] theorem State.setPc_st (s : State) (a : Word) : (s.setPc a).st = s.st := rfl
@[simp] theorem State.setPc_mem (s : State) (a : Word) : (s.setPc a).mem = s.mem := rfl
@[simp] theorem State.setPc_fb (s : State) (a : Word) : (s.setPc a).fb = s.fb := rfl
@[simp] theorem State.setPc_keys (s : State) (a : Word) : (s.setPc a).keys = s.keys := rfl
@[simp] theorem State.setPc_qShift (s : State) (a : Word) : (s.setPc a).qShift = s.qShift := rfl
@[simp] theorem State.setPc_qJump (s : State) (a : Word) : (s.setPc a).qJump = s.qJump := rfl
@[simp] theorem State.setPc_qLdst (s : State) (a : Word) : (s.setPc a).qLdst = s.qLdst := rfl
@[simp] theorem State.setPc_fault (s : State) (a : Word) : (s.setPc a).fault = s.fault := rfl
@[simp] theorem State.setPc_params (s : State) (a : Word) : (s.setPc a).params = s.params := rfl
@[simp] theorem State.setPc_epoch (s : State) (a : Word) : (s.setPc a).epoch = s.epoch := rfl
@[simp] theorem State.setPc_randDraws (s : State) (a : Word) : (s.setPc a).randDraws = s.randDraws := rfl
@[simp] theorem State.setPc_getV (s : State) (a : Word) (r : Nibble) : (s.setPc a).getV r = s.getV r := rfl
@[simp] theorem State.setPc_byteAt (s : State) (a : Word) (c : Nat) : (s.setPc a).byteAt c = s.byteAt c := rfl
@[simp] theorem State.setPc_stackAt (s : State) (a : Word) (j : Nat) : (s.setPc a).stackAt j = s.stackAt j := rfl
@[simp] theorem State.setPc_pixel (s : State) (a : Word) (col row : Nat) : (s.setPc a).pixel col row = s.pixel col row := rfl
@[simp] theorem State.setPc_keyDown (s : State) (a : Word) (k : Nat) : (s.setPc a).keyDown k = s.keyDown k := rfl

/-! ### `setI` -/

@[simp] theorem State.setI_v (s : State) (a : Word) : (s.setI a).v = s.v := rfl
@[simp] theorem State.setI_pc (s : State) (a : Word) : (s.setI a).pc = s.pc := rfl
@[simp] theorem State.setI_i (s : State) (a : Word) : (s.setI a).i = a := rfl
@[simp] theorem State.setI_sp (s : State) (a : Word) : (s.setI a).sp = s.sp := rfl
@[simp] theorem State.setI_stack (s : State) (a : Word) : (s.setI a).stack = s.stack := rfl
@[simp] theorem State.setI_dt (s : State) (a : Word) : (s.setI a).dt = s.dt := rfl
@[simp] theorem State.setI_st (s : State) (a : Word) : (s.setI a).st = s.st := rfl
@[simp] theorem State.setI_mem (s : State) (a : Word) : (s.setI a).mem = s.mem := rfl
@[simp] theorem State.setI_fb (s : State) (a : Word) : (s.setI a).fb = s.fb := rfl
@[simp] theorem State.setI_keys (s : State) (a : Word) : (s.setI a).keys = s.keys := rfl
@[simp] theorem State.setI_qShift (s : State) (a : Word) : (s.setI a).qShift = s.qShift := rfl
@[simp] theorem State.setI_qJump (s : State) (a : Word) : (s.setI a).qJump = s.qJump := rfl
@[simp] theorem State.setI_qLdst (s : State) (a : Word) : (s.setI a).qLdst = s.qLdst := rfl
@[simp] theorem State.setI_fault (s : State) (a : Word) : (s.setI a).fault = s.fault := rfl
@[simp] theorem State.setI_params (s : State) (a : Word) : (s.setI a).params = s.params := rfl
@[simp] theorem State.setI_epoch (s : State) (a : Word) : (s.setI a).epoch = s.epoch := rfl
@[simp] theorem State.setI_randDraws (s : State) (a : Word) : (s.setI a).randDraws = s.randDraws := rfl
@[simp] theorem State.setI_getV (s : State) (a : Word) (r : Nibble) : (s.setI a).getV r = s.getV r := rfl
@[simp] theorem State.setI_byteAt (s : State) (a : Word) (c : Nat) : (s.setI a).byteAt c = s.byteAt c := rfl
@[simp] theorem State.setI_stackAt (s : State) (a : Word) (j : Nat) : (s.setI a).stackAt j = s.stackAt j := rfl
@[simp] theorem State.setI_pixel (s : State) (a : Word) (col row : Nat) : (s.setI a).pixel col row = s.pixel col row := rfl
@[simp] theorem State.setI_keyDown (s : State) (a : Word) (k : Nat) : (s.setI a).keyDown k = s.keyDown k := rfl

/-! ### `setDt` -/

@[simp] theorem State.setDt_v (s : State) (b : Byte) : (s.setDt b).v = s.v := rfl
@[simp] theorem State.setDt_pc (s : State) (b : Byte) : (s.setDt b).pc = s.pc := rfl
@[simp] theorem State.setDt_i (s : State) (b : Byte) : (s.setDt b).i = s.i := rfl
@[simp] theorem State.setDt_sp (s : State) (b : Byte) : (s.setDt b).sp = s.sp := rfl
@[simp] theorem State.setDt_stack (s : State) (b : Byte) : (s.setDt b).stack = s.stack := rfl
@[simp] theorem State.setDt_dt (s : State) (b : Byte) : (s.setDt b).dt = b := rfl
@[simp] theorem State.setDt_st (s : State) (b : Byte) : (s.setDt b).st = s.st := rfl
@[simp] theorem State.setDt_mem (s : State) (b : Byte) : (s.setDt b).mem = s.mem := rfl
@[simp] theorem State.setDt_fb (s : State) (b : Byte) : (s.setDt b).fb = s.fb := rfl
@[simp] theorem State.setDt_keys (s : State) (b : Byte) : (s.setDt b).keys = s.keys := rfl
@[simp] theorem State.setDt_qShift (s : State) (b : Byte) : (s.setDt b).qShift = s.qShift := rfl
@[simp] theorem State.setDt_qJump (s : State) (b : Byte) : (s.setDt b).qJump = s.qJump := rfl
@[simp] theorem State.setDt_qLdst (s : State) (b : Byte) : (s.setDt b).qLdst = s.qLdst := rfl
@[simp] theorem State.setDt_fault (s : State) (b : Byte) : (s.setDt b).fault = s.fault := rfl
@[simp] theorem State.setDt_params (s : State) (b : Byte) : (s.setDt b).params = s.params := rfl
@[simp] theorem State.setDt_epoch (s : State) (b : Byte) : (s.setDt b).epoch = s.epoch := rfl
@[simp] theorem State.setDt_randDraws (s : State) (b : Byte) : (s.setDt b).randDraws = s.randDraws := rfl
@[simp] theorem State.setDt_getV (s : State) (b : Byte) (r : Nibble) : (s.setDt b).getV r = s.getV r := rfl
@[simp] theorem State.setDt_byteAt (s : State) (b : Byte) (c : Nat) : (s.setDt b).byteAt c = s.byteAt c := rfl
@[simp] theorem State.setDt_stackAt (s : State) (b : Byte) (j : Nat) : (s.setDt b).stackAt j = s.stackAt j := rfl
@[simp] theorem State.setDt_pixel (s : State) (b : Byte) (col row : Nat) : (s.setDt b).pixel col row = s.pixel col row := rfl
@[simp] theorem State.setDt_keyDown (s : State) (b : Byte) (k : Nat) : (s.setDt b).keyDown k = s.keyDown k := rfl

/-! ### `setSt` -/

@[simp] theorem State.setSt_v (s : State) (b : Byte) : (s.setSt b).v = s.v := rfl
@[simp] theorem State.setSt_pc (s : State) (b : Byte) : (s.setSt b).pc = s.pc := rfl
@[simp] theorem State.setSt_i (s : State) (b : Byte) : (s.setSt b).i = s.i := rfl
@[simp] theorem State.setSt_sp (s : State) (b : Byte) : (s.setSt b).sp = s.sp := rfl
@[simp] theorem State.setSt_stack (s : State) (b : Byte) : (s.setSt b).stack = s.stack := rfl
@[simp] theorem State.setSt_dt (s : State) (b : Byte) : (s.setSt b).dt = s.dt := rfl
@[simp] theorem State.setSt_st (s : State) (b : Byte) : (s.setSt b).st = b := rfl
@[simp] theorem State.setSt_mem (s : State) (b : Byte) : (s.setSt b).mem = s.mem := rfl
@[simp] theorem State.setSt_fb (s : State) (b : Byte) : (s.setSt b).fb = s.fb := rfl
@[simp] theorem State.setSt_keys (s : State) (b : Byte) : (s.setSt b).keys = s.keys := rfl
@[simp] theorem State.setSt_qShift (s : State) (b : Byte) : (s.setSt b).qShift = s.qShift := rfl
@[simp] theorem State.setSt_qJump (s : State) (b : Byte) : (s.setSt b).qJump = s.qJump := rfl
@[simp] theorem State.setSt_qLdst (s : State) (b : Byte) : (s.setSt b).qLdst = s.qLdst := rfl
@[simp] theorem State.setSt_fault (s : State) (b : Byte) : (s.setSt b).fault = s.fault := rfl
@[simp] theorem State.setSt_params (s : State) (b : Byte) : (s.setSt b).params = s.params := rfl
@[simp] theorem State.setSt_epoch (s : State) (b : Byte) : (s.setSt b).epoch = s.epoch := rfl
@[simp] theorem State.setSt_randDraws (s : State) (b : Byte) : (s.setSt b).randDraws = s.randDraws := rfl
@[simp] theorem State.setSt_getV (s : State) (b : Byte) (r : Nibble) : (s.setSt b).getV r = s.getV r := rfl
@[simp] theorem State.setSt_byteAt (s : State) (b : Byte) (c : Nat) : (s.setSt b).byteAt c = s.byteAt c := rfl
@[simp] theorem State.setSt_stackAt (s : State) (b : Byte) (j : Nat) : (s.setSt b).stackAt j = s.stackAt j := rfl
@[simp] theorem State.setSt_pixel (s : State) (b : Byte) (col row : Nat) : (s.setSt b).pixel col row = s.pixel col row := rfl
@[simp] theorem State.setSt_keyDown (s : State) (b : Byte) (k : Nat) : (s.setSt b).keyDown k = s.keyDown k := rfl

/-! ### `setFb` -/

@[simp] theorem State.setFb_v (s : State) (fb : Display) : (s.setFb fb).v = s.v := rfl
@[simp] theorem State.setFb_pc (s : State) (fb : Display) : (s.setFb fb).pc = s.pc := rfl
@[simp] theorem State.setFb_i (s : State) (fb : Display) : (s.setFb fb).i = s.i := rfl
@[simp] theorem State.setFb_sp (s : State) (fb : Display) : (s.setFb fb).sp = s.sp := rfl
@[simp] theorem State.setFb_stack (s : State) (fb : Display) : (s.setFb fb).stack = s.stack := rfl
@[simp] theorem State.setFb_dt (s : State) (fb : Display) : (s.setFb fb).dt = s.dt := rfl
@[simp] theorem State.setFb_st (s : State) (fb : Display) : (s.setFb fb).st = s.st := rfl
@[simp] theorem State.setFb_mem (s : State) (fb : Display) : (s.setFb fb).mem = s.mem := rfl
@[simp] theorem State.setFb_fb (s : State) (fb : Display) : (s.setFb fb).fb = fb := rfl
@[simp] theorem State.setFb_keys (s : State) (fb : Display) : (s.setFb fb).keys = s.keys := rfl
@[simp] theorem State.setFb_qShift (s : State) (fb : Display) : (s.setFb fb).qShift = s.qShift := rfl
@[simp] theorem State.setFb_qJump (s : State) (fb : Display) : (s.setFb fb).qJump = s.qJump := rfl
@[simp] theorem State.setFb_qLdst (s : State) (fb : Display) : (s.setFb fb).qLdst = s.qLdst := rfl
@[simp] theorem State.setFb_fault (s : State) (fb : Display) : (s.setFb fb).fault = s.fault := rfl
@[simp] theorem State.setFb_params (s : State) (fb : Display) : (s.setFb fb).params = s.params := rfl
@[simp] theorem State.setFb_epoch (s : State) (fb : Display) : (s.setFb fb).epoch = s.epoch := rfl
@[simp] theorem State.setFb_randDraws (s : State) (fb : Display) : (s.setFb fb).randDraws = s.randDraws := rfl
@[simp] theorem State.setFb_getV (s : State) (fb : Display) (r : Nibble) : (s.setFb fb).getV r = s.getV r := rfl
@[simp] theorem State.setFb_byteAt (s : State) (fb : Display) (c : Nat) : (s.setFb fb).byteAt c = s.byteAt c := rfl
@[simp] theorem State.setFb_stackAt (s : State) (fb : Display) (j : Nat) : (s.setFb fb).stackAt j = s.stackAt j := rfl
@[simp] theorem State.setFb_keyDown (s : State) (fb : Display) (k : Nat) : (s.setFb fb).keyDown k = s.keyDown k := rfl

/-! ### `setByte` -/

@[simp] theorem State.setByte_v (s : State) (a : Nat) (b : Byte) : (s.setByte a b).v = s.v := rfl
@[simp] theorem State.setByte_pc (s : State) (a : Nat) (b : Byte) : (s.setByte a b).pc = s.pc := rfl
@[simp] theorem State.setByte_i (s : State) (a : Nat) (b : Byte) : (s.setByte a b).i = s.i := rfl
@[simp] theorem State.setByte_sp (s : State) (a : Nat) (b : Byte) : (s.setByte a b).sp = s.sp := rfl
@[simp] theorem State.setByte_stack (s : State) (a : Nat) (b : Byte) : (s.setByte a b).stack = s.stack := rfl
@[simp] theorem State.setByte_dt (s : State) (a : Nat) (b : Byte) : (s.setByte a b).dt = s.dt := rfl
@[simp] theorem State.setByte_st (s : State) (a : Nat) (b : Byte) : (s.setByte a b).st = s.st := rfl
@[simp] theorem State.setByte_mem (s : State) (a : Nat) (b : Byte) : (s.setByte a b).mem = Memory.put s.params s.mem a b := rfl
@[simp] theorem State.setByte_fb (s : State) (a : Nat) (b : Byte) : (s.setByte a b).fb = s.fb := rfl
@[simp] theorem State.setByte_keys (s : State) (a : Nat) (b : Byte) : (s.setByte a b).keys = s.keys := rfl
@[simp] theorem State.setByte_qShift (s : State) (a : Nat) (b : Byte) : (s.setByte a b).qShift = s.qShift := rfl
@[simp] theorem State.setByte_qJump (s : State) (a : Nat) (b : Byte) : (s.setByte a b).qJump = s.qJump := rfl
@[simp] theorem State.setByte_qLdst (s : State) (a : Nat) (b : Byte) : (s.setByte a b).qLdst = s.qLdst := rfl
@[simp] theorem State.setByte_fault (s : State) (a : Nat) (b : Byte) : (s.setByte a b).fault = s.fault := rfl
@[simp] theorem State.setByte_params (s : State) (a : Nat) (b : Byte) : (s.setByte a b).params = s.params := rfl
@[simp] theorem State.setByte_epoch (s : State) (a : Nat) (b : Byte) : (s.setByte a b).epoch = s.epoch := rfl
@[simp] theorem State.setByte_randDraws (s : State) (a : Nat) (b : Byte) : (s.setByte a b).randDraws = s.randDraws := rfl
@[simp] theorem State.setByte_getV (s : State) (a : Nat) (b : Byte) (r : Nibble) : (s.setByte a b).getV r = s.getV r := rfl
@[simp] theorem State.setByte_stackAt (s : State) (a : Nat) (b : Byte) (j : Nat) : (s.setByte a b).stackAt j = s.stackAt j := rfl
@[simp] theorem State.setByte_pixel (s : State) (a : Nat) (b : Byte) (col row : Nat) : (s.setByte a b).pixel col row = s.pixel col row := rfl
@[simp] theorem State.setByte_keyDown (s : State) (a : Nat) (b : Byte) (k : Nat) : (s.setByte a b).keyDown k = s.keyDown k := rfl

/-! ### `advance` -/

@[simp] theorem State.advance_v (s : State) : (s.advance).v = s.v := rfl
@[simp] theorem State.advance_pc (s : State) : (s.advance).pc = s.pc + 2#16 := rfl
@[simp] theorem State.advance_i (s : State) : (s.advance).i = s.i := rfl
@[simp] theorem State.advance_sp (s : State) : (s.advance).sp = s.sp := rfl
@[simp] theorem State.advance_stack (s : State) : (s.advance).stack = s.stack := rfl
@[simp] theorem State.advance_dt (s : State) : (s.advance).dt = s.dt := rfl
@[simp] theorem State.advance_st (s : State) : (s.advance).st = s.st := rfl
@[simp] theorem State.advance_mem (s : State) : (s.advance).mem = s.mem := rfl
@[simp] theorem State.advance_fb (s : State) : (s.advance).fb = s.fb := rfl
@[simp] theorem State.advance_keys (s : State) : (s.advance).keys = s.keys := rfl
@[simp] theorem State.advance_qShift (s : State) : (s.advance).qShift = s.qShift := rfl
@[simp] theorem State.advance_qJump (s : State) : (s.advance).qJump = s.qJump := rfl
@[simp] theorem State.advance_qLdst (s : State) : (s.advance).qLdst = s.qLdst := rfl
@[simp] theorem State.advance_fault (s : State) : (s.advance).fault = s.fault := rfl
@[simp] theorem State.advance_params (s : State) : (s.advance).params = s.params := rfl
@[simp] theorem State.advance_epoch (s : State) : (s.advance).epoch = s.epoch := rfl
@[simp] theorem State.advance_randDraws (s : State) : (s.advance).randDraws = s.randDraws := rfl
@[simp] theorem State.advance_getV (s : State) (r : Nibble) : (s.advance).getV r = s.getV r := rfl
@[simp] theorem State.advance_byteAt (s : State) (c : Nat) : (s.advance).byteAt c = s.byteAt c := rfl
@[simp] theorem State.advance_stackAt (s : State) (j : Nat) : (s.advance).stackAt j = s.stackAt j := rfl
@[simp] theorem State.advance_pixel (s : State) (col row : Nat) : (s.advance).pixel col row = s.pixel col row := rfl
@[simp] theorem State.advance_keyDown (s : State) (k : Nat) : (s.advance).keyDown k = s.keyDown k := rfl

/-! ### `rewind` -/

@[simp] theorem State.rewind_v (s : State) : (s.rewind).v = s.v := rfl
@[simp] theorem State.rewind_pc (s : State) : (s.rewind).pc = s.pc - 2#16 := rfl
@[simp] theorem State.rewind_i (s : State) : (s.rewind).i = s.i := rfl
@[simp] theorem State.rewind_sp (s : State) : (s.rewind).sp = s.sp := rfl
@[simp] theorem State.rewind_stack (s : State) : (s.rewind).stack = s.stack := rfl
@[simp] theorem State.rewind_dt (s : State) : (s.rewind).dt = s.dt := rfl
@[simp] theorem State.rewind_st (s : State) : (s.rewind).st = s.st := rfl
@[simp] theorem State.rewind_mem (s : State) : (s.rewind).mem = s.mem := rfl
@[simp] theorem State.rewind_fb (s : State) : (s.rewind).fb = s.fb := rfl
@[simp] theorem State.rewind_keys (s : State) : (s.rewind).keys = s.keys := rfl
@[simp] theorem State.rewind_qShift (s : State) : (s.rewind).qShift = s.qShift := rfl
@[simp] theorem State.rewind_qJump (s : State) : (s.rewind).qJump = s.qJump := rfl
@[simp] theorem State.rewind_qLdst (s : State) : (s.rewind).qLdst = s.qLdst := rfl
@[simp] theorem State.rewind_fault (s : State) : (s.rewind).fault = s.fault := rfl
@[simp] theorem State.rewind_params (s : State) : (s.rewind).params = s.params := rfl
@[simp] theorem State.rewind_epoch (s : State) : (s.rewind).epoch = s.epoch := rfl
@[simp] theorem State.rewind_randDraws (s : State) : (s.rewind).randDraws = s.randDraws := rfl
@[simp] theorem State.rewind_getV (s : State) (r : Nibble) : (s.rewind).getV r = s.getV r := rfl
@[simp] theorem State.rewind_byteAt (s : State) (c : Nat) : (s.rewind).byteAt c = s.byteAt c := rfl
@[simp] theorem State.rewind_stackAt (s : State) (j : Nat) : (s.rewind).stackAt j = s.stackAt j := rfl
@[simp] theorem State.rewind_pixel (s : State) (col row : Nat) : (s.rewind).pixel col row = s.pixel col row := rfl
@[simp] theorem State.rewind_keyDown (s : State) (k : Nat) : (s.rewind).keyDown k = s.keyDown k := rfl

/-! ### `nextRand` -/

@[simp] theorem State.nextRand_v (s : State) : (s.nextRand).v = s.v := rfl
@[simp] theorem State.nextRand_pc (s : State) : (s.nextRand).pc = s.pc := rfl
@[simp] theorem State.nextRand_i (s : State) : (s.nextRand).i = s.i := rfl
@[simp] theorem State.nextRand_sp (s : State) : (s.nextRand).sp = s.sp := rfl
@[simp] theorem State.nextRand_stack (s : State) : (s.nextRand).stack = s.stack := rfl
@[simp] theorem State.nextRand_dt (s : State) : (s.nextRand).dt = s.dt := rfl
@[simp] theorem State.nextRand_st (s : State) : (s.nextRand).st = s.st := rfl
@[simp] theorem State.nextRand_mem (s : State) : (s.nextRand).mem = s.mem := rfl
@[simp] theorem State.nextRand_fb (s : State) : (s.nextRand).fb = s.fb := rfl
@[simp] theorem State.nextRand_keys (s : State) : (s.nextRand).keys = s.keys := rfl
@[simp] theorem State.nextRand_qShift (s : State) : (s.nextRand).qShift = s.qShift := rfl
@[simp] theorem State.nextRand_qJump (s : State) : (s.nextRand).qJump = s.qJump := rfl
@[simp] theorem State.nextRand_qLdst (s : State) : (s.nextRand).qLdst = s.qLdst := rfl
@[simp] theorem State.nextRand_fault (s : State) : (s.nextRand).fault = s.fault := rfl
@[simp] theorem State.nextRand_params (s : State) : (s.nextRand).params = s.params := rfl
@[simp] theorem State.nextRand_epoch (s : State) : (s.nextRand).epoch = s.epoch := rfl
@[simp] theorem State.nextRand_randDraws (s : State) : (s.nextRand).randDraws = s.randDraws + 1 := rfl
@[simp] theorem State.nextRand_getV (s : State) (r : Nibble) : (s.nextRand).getV r = s.getV r := rfl
@[simp] theorem State.nextRand_byteAt (s : State) (c : Nat) : (s.nextRand).byteAt c = s.byteAt c := rfl
@[simp] theorem State.nextRand_stackAt (s : State) (j : Nat) : (s.nextRand).stackAt j = s.stackAt j := rfl
@[simp] theorem State.nextRand_pixel (s : State) (col row : Nat) : (s.nextRand).pixel col row = s.pixel col row := rfl
@[simp] theorem State.nextRand_keyDown (s : State) (k : Nat) : (s.nextRand).keyDown k = s.keyDown k := rfl

end Sys2Proof.Machine
end

