-- ==== Sys2Proof/Laws/Memory.lean ====
section
/-! SUPPORT. Memory: reading after writing, byte by byte and block by block, and the canonical form that every memory
operation keeps and reset has. -/

namespace Sys2Proof.Machine

theorem State.byteAt_setByte (s : State) (a c : Nat) (b : Byte) :
    (s.setByte a b).byteAt c = if c = a then b else s.byteAt c := by
  simp only [State.byteAt, State.setByte, Memory.put]
  by_cases hf : fontByte s.params a = some b
  · simp only [hf, if_true, Sparse.get?_erase]
    by_cases h : c = a
    · subst h
      simp [unlistedByte, hf]
    · simp [h]
  · simp only [hf, if_false, Sparse.get?_put]
    by_cases h : c = a <;> simp [h]

/-- What a block store leaves at every address. -/
theorem State.byteAt_storeBlock (bs : List Byte) (s : State) (base c : Nat) :
    (s.storeBlock base bs).byteAt c = if base ≤ c then (bs[c - base]?).getD (s.byteAt c) else s.byteAt c := by
  induction bs generalizing s base with
  | nil => simp [State.storeBlock]
  | cons b bs ih =>
    rw [State.storeBlock, ih, State.byteAt_setByte]
    rcases Nat.lt_trichotomy c base with h | h | h
    · rw [if_neg (by omega), if_neg (by omega), if_neg (by omega)]
    · subst h
      rw [if_neg (by omega), if_pos rfl, if_pos (Nat.le_refl _)]
      simp
    · rw [if_pos (by omega), if_neg (by omega), if_pos (by omega)]
      obtain ⟨k, rfl⟩ : ∃ k, c = base + 1 + k := ⟨c - (base + 1), by omega⟩
      rw [show base + 1 + k - (base + 1) = k by omega, show base + 1 + k - base = k + 1 by omega]
      simp

/-- A block store changes memory only. -/
theorem State.storeBlock_eq (bs : List Byte) (s : State) (base : Nat) :
    s.storeBlock base bs = { s with mem := (s.storeBlock base bs).mem } := by
  induction bs generalizing s base with
  | nil => rfl
  | cons b bs ih =>
    rw [State.storeBlock, ih]
    rfl

theorem State.length_readBlock (s : State) (base len : Nat) : (s.readBlock base len).length = len := by
  simp [State.readBlock]

theorem State.getElem?_readBlock (s : State) (base len k : Nat) :
    (s.readBlock base len)[k]? = if k < len then some (s.byteAt (base + k)) else none := by
  by_cases h : k < len
  · simp [State.readBlock, h]
  · simp [State.readBlock, h]

theorem Memory.wf_put {p : Params} {m : Memory} (h : Memory.wf p m) {a : Nat} (ha : a < 0x1000) (b : Byte) :
    Memory.wf p (Memory.put p m a b) := by
  unfold Memory.put
  split_ifs with hf
  · exact ⟨Sparse.rising_erase h.1 a, fun c hc => h.2 c (Sparse.mem_erase hc)⟩
  · refine ⟨Sparse.rising_put h.1 a b, fun c hc => ?_⟩
    rcases Sparse.mem_put hc with rfl | hc
    · exact ⟨ha, hf⟩
    · exact h.2 c hc

theorem State.wf_setByte {s : State} (h : Memory.wf s.params s.mem) {a : Nat} (ha : a < 0x1000) (b : Byte) :
    Memory.wf (s.setByte a b).params (s.setByte a b).mem :=
  Memory.wf_put h ha b

theorem State.wf_storeBlock {bs : List Byte} {s : State} {base : Nat} (h : Memory.wf s.params s.mem)
    (hb : base + bs.length ≤ 0x1000) :
    Memory.wf (s.storeBlock base bs).params (s.storeBlock base bs).mem := by
  induction bs generalizing s base with
  | nil => exact h
  | cons b bs ih =>
    simp only [List.length_cons] at hb
    exact ih (State.wf_setByte h (by omega) b) (by omega)

theorem State.wf_reset_mem : Memory.wf State.reset.params State.reset.mem := by
  decide

end Sys2Proof.Machine
end

