-- ==== Sys2Proof/Laws/Draw.lean ====
section
/-! SUPPORT. What drawing does, pixel by pixel: one law for the columns of one sprite row, one for the rows of a sprite. A
pixel is flipped exactly where a set sprite bit lands, and the collision is noted exactly when one of those was set. -/

namespace Sys2Proof.Machine

/-- Whether the first `m` columns of the row byte `b`, drawn from column `x0` on display row `row`, set the pixel. -/
def rowCovers (x0 m row : Nat) (b : Byte) (col r : Nat) : Bool :=
  decide (r = row ∧ x0 ≤ col ∧ col < x0 + m) && b.getLsbD (7 - (col - x0))

/-- Whether the row bytes `bs`, drawn from column `x0`, row `y0` down, set the pixel. -/
def rowsCover (x0 y0 : Nat) (bs : List Byte) (col r : Nat) : Bool :=
  decide (y0 ≤ r ∧ r < y0 + bs.length ∧ x0 ≤ col ∧ col < x0 + 8) && (bs[r - y0]?.getD 0#8).getLsbD (7 - (col - x0))

/-- The first `m` columns of `drawRow`. -/
def drawCols (x0 row : Nat) (b : Byte) (d : Drawing) (m : Nat) : Drawing :=
  (List.range m).foldl
    (fun d c => if x0 + c ≤ 63 ∧ b.getLsbD (7 - c) = true then drawPixel (x0 + c) row d else d) d

theorem drawRow_eq_drawCols (x0 row : Nat) (b : Byte) (d : Drawing) : drawRow x0 row b d = drawCols x0 row b d 8 := rfl

theorem drawCols_succ (x0 row : Nat) (b : Byte) (d : Drawing) (m : Nat) :
    drawCols x0 row b d (m + 1) =
      if x0 + m ≤ 63 ∧ b.getLsbD (7 - m) = true then drawPixel (x0 + m) row (drawCols x0 row b d m)
      else drawCols x0 row b d m := by
  simp [drawCols, List.range_succ]

theorem rowCovers_zero (x0 row : Nat) (b : Byte) (col r : Nat) : rowCovers x0 0 row b col r = false := by
  unfold rowCovers
  rw [decide_eq_false (by omega), Bool.false_and]

theorem rowCovers_last (x0 m row : Nat) (b : Byte) : rowCovers x0 m row b (x0 + m) row = false := by
  unfold rowCovers
  rw [decide_eq_false (by omega), Bool.false_and]

theorem rowCovers_succ (x0 m row : Nat) (b : Byte) (col r : Nat) :
    rowCovers x0 (m + 1) row b col r =
      (rowCovers x0 m row b col r ^^ (decide (col = x0 + m ∧ r = row) && b.getLsbD (7 - m))) := by
  unfold rowCovers
  by_cases h : col = x0 + m
  · subst h
    simp
  · have e : (r = row ∧ x0 ≤ col ∧ col < x0 + (m + 1)) ↔ (r = row ∧ x0 ≤ col ∧ col < x0 + m) := by omega
    simp only [e]
    simp [h]

/-- A drawing step adds what `cover` covers: it flips those pixels, and notes a collision when one of them was set. -/
def DrawsCover (cover : Nat → Nat → Bool) (d e : Drawing) : Prop :=
  (∀ col r, col < 64 → r < 32 → Display.pixel e.1 col r = (Display.pixel d.1 col r ^^ cover col r)) ∧
  (e.2 = true ↔ d.2 = true ∨
    ∃ col r, col < 64 ∧ r < 32 ∧ Display.pixel d.1 col r = true ∧ cover col r = true)

theorem DrawsCover.none (d : Drawing) {cover : Nat → Nat → Bool}
    (h : ∀ col r, col < 64 → r < 32 → cover col r = false) : DrawsCover cover d d := by
  refine ⟨fun col r hc hr => by simp [h col r hc hr], ⟨.inl, ?_⟩⟩
  rintro (hd | ⟨col, r, hc, hr, -, hk⟩)
  · exact hd
  · simp [h col r hc hr] at hk

/-- Two drawing steps that cover no common pixel draw together what each covers. -/
theorem DrawsCover.trans {c₁ c₂ c : Nat → Nat → Bool} {d e f : Drawing} (h₁ : DrawsCover c₁ d e)
    (h₂ : DrawsCover c₂ e f) (hc : ∀ col r, col < 64 → r < 32 → c col r = (c₁ col r ^^ c₂ col r))
    (hd : ∀ col r, c₁ col r = true → c₂ col r = false) : DrawsCover c d f := by
  constructor
  · intro col r hcol hr
    rw [h₂.1 col r hcol hr, h₁.1 col r hcol hr, hc col r hcol hr, Bool.xor_assoc]
  · rw [h₂.2, h₁.2]
    constructor
    · rintro ((h | ⟨col, r, hcol, hr, hp, hk⟩) | ⟨col, r, hcol, hr, hp, hk⟩)
      · exact .inl h
      · exact .inr ⟨col, r, hcol, hr, hp, by rw [hc col r hcol hr, hk, hd col r hk]; rfl⟩
      · cases h1 : c₁ col r with
        | true => simp [hd col r h1] at hk
        | false =>
          rw [h₁.1 col r hcol hr, h1] at hp
          exact .inr ⟨col, r, hcol, hr, by simpa using hp, by rw [hc col r hcol hr, h1, hk]; rfl⟩
    · rintro (h | ⟨col, r, hcol, hr, hp, hk⟩)
      · exact .inl (.inl h)
      · rw [hc col r hcol hr] at hk
        cases h1 : c₁ col r with
        | true => exact .inl (.inr ⟨col, r, hcol, hr, hp, h1⟩)
        | false =>
          rw [h1] at hk
          refine .inr ⟨col, r, hcol, hr, ?_, by simpa using hk⟩
          rw [h₁.1 col r hcol hr, h1]
          simpa using hp

theorem drawPixel_covers {col row : Nat} (hc : col < 64) (hr : row < 32) (d : Drawing) :
    DrawsCover (fun c r => decide (c = col ∧ r = row)) d (drawPixel col row d) := by
  refine ⟨fun c r _ _ => Display.pixel_flip d.1 hc hr c r, ?_⟩
  simp only [drawPixel, Bool.or_eq_true, decide_eq_true_eq]
  constructor
  · rintro (h | h)
    · exact .inl h
    · exact .inr ⟨col, row, hc, hr, h, rfl, rfl⟩
  · rintro (h | ⟨c, r, -, -, h, rfl, rfl⟩)
    · exact .inl h
    · exact .inr h

theorem drawCols_covers (x0 : Nat) {row : Nat} (hr : row < 32) (b : Byte) (d : Drawing) (m : Nat) :
    DrawsCover (rowCovers x0 m row b) d (drawCols x0 row b d m) := by
  induction m with
  | zero => exact DrawsCover.none d fun col r _ _ => rowCovers_zero x0 row b col r
  | succ m ih =>
    rw [drawCols_succ]
    split_ifs with h
    · refine ih.trans (drawPixel_covers (by omega) hr _) (fun col r _ _ => ?_) (fun col r hk => ?_)
      · rw [rowCovers_succ, h.2, Bool.and_true]
      · rw [decide_eq_false]
        rintro ⟨rfl, rfl⟩
        simp [rowCovers_last] at hk
    · refine ih.trans (DrawsCover.none (cover := fun _ _ => false) _ fun _ _ _ _ => rfl) (fun col r hc _ => ?_)
        (fun _ _ _ => rfl)
      rw [rowCovers_succ]
      by_cases e : col = x0 + m
      · have : b.getLsbD (7 - m) = false := by
          by_contra hb
          exact h ⟨by omega, by simpa using hb⟩
        simp [this]
      · simp [e]

theorem rowsCover_cons (x0 y0 : Nat) (b : Byte) (bs : List Byte) (col r : Nat) :
    rowsCover x0 y0 (b :: bs) col r = (rowCovers x0 8 y0 b col r ^^ rowsCover x0 (y0 + 1) bs col r) := by
  unfold rowCovers rowsCover
  rcases Nat.lt_trichotomy r y0 with h | h | h
  · simp [show ¬ y0 ≤ r by omega, show ¬ r = y0 by omega, show ¬ y0 < r by omega]
  · subst h
    simp
  · obtain ⟨k, rfl⟩ : ∃ k, r = y0 + 1 + k := ⟨r - (y0 + 1), by omega⟩
    have e : (y0 ≤ y0 + 1 + k ∧ y0 + 1 + k < y0 + (b :: bs).length ∧ x0 ≤ col ∧ col < x0 + 8) ↔
        (y0 + 1 ≤ y0 + 1 + k ∧ y0 + 1 + k < y0 + 1 + bs.length ∧ x0 ≤ col ∧ col < x0 + 8) := by
      simp only [List.length_cons]
      omega
    simp only [e]
    simp [show y0 + 1 + k - y0 = k + 1 by omega, show y0 + 1 + k ≠ y0 by omega]

/-- The law of the whole sprite. -/
theorem drawRows_covers (x0 : Nat) (bs : List Byte) (y0 : Nat) (d : Drawing) :
    DrawsCover (rowsCover x0 y0 bs) d (drawRows x0 y0 bs d) := by
  induction bs generalizing y0 d with
  | nil =>
    refine DrawsCover.none d fun col r _ _ => ?_
    unfold rowsCover
    rw [decide_eq_false (by simp only [List.length_nil]; omega), Bool.false_and]
  | cons b bs ih =>
    have disjoint : ∀ col r, rowCovers x0 8 y0 b col r = true → rowsCover x0 (y0 + 1) bs col r = false := by
      intro col r h
      simp only [rowCovers, Bool.and_eq_true, decide_eq_true_eq] at h
      unfold rowsCover
      rw [decide_eq_false (by omega), Bool.false_and]
    rw [drawRows]
    split_ifs with h
    · rw [drawRow_eq_drawCols]
      exact (drawCols_covers x0 (by omega) b d 8).trans (ih _ _)
        (fun col r _ _ => rowsCover_cons x0 y0 b bs col r) disjoint
    · refine (DrawsCover.none (cover := fun _ _ => false) d fun _ _ _ _ => rfl).trans (ih (y0 + 1) d)
        (fun col r _ hr => ?_) (fun _ _ h => by simp at h)
      rw [rowsCover_cons]
      unfold rowCovers
      rw [decide_eq_false (by omega), Bool.false_and]

end Sys2Proof.Machine
end

