-- ==== Sys2Proof/Laws/Ops.lean ====
section
/-! SUPPORT. One law per shared operation of registers, stack, range check, fault and fetch: everything it can do. -/

namespace Sys2Proof.Machine

theorem State.getV_setV (s : State) (x r : Nibble) (b : Byte) :
    (s.setV x b).getV r = if r = x then b else s.getV r := by
  simp only [State.getV, State.setV, Vector.getElem_set]
  by_cases h : r = x
  · simp [h]
  · rw [if_neg (fun e => h (BitVec.eq_of_toNat_eq e.symm)), if_neg h]

theorem State.getV_setVs (s : State) (bs : List Byte) (r : Nibble) :
    (s.setVs bs).getV r = (bs[r.toNat]?).getD (s.getV r) := by
  simp [State.getV, State.setVs]

/-- Element `k` of the register file is what `getV` reads. -/
theorem State.getElem?_v (s : State) (k : Nat) :
    s.v.toList[k]? = if k < 16 then some (s.getV (BitVec.ofNat 4 k)) else none := by
  by_cases h : k < 16
  · have e : (BitVec.ofNat 4 k).toNat = k := by simp [Nat.mod_eq_of_lt h]
    simp [h, State.getV, e]
  · simp [h]

theorem State.push_ok {s : State} (h : s.sp < s.params.stackDepth) (a : Word) :
    s.push a = .ok { s with stack := Sparse.put s.stack s.sp a, sp := s.sp + 1 } := by
  simp [State.push, Nat.not_le.2 h]

theorem State.push_overflow {s : State} (h : s.params.stackDepth ≤ s.sp) (a : Word) :
    s.push a = .error .stackOverflow := by
  simp [State.push, h]

theorem State.pop_ok {s : State} (h : s.sp ≠ 0) :
    s.pop = .ok (s.stackAt (s.sp - 1), { s with sp := s.sp - 1 }) := by
  simp [State.pop, h]

theorem State.pop_underflow {s : State} (h : s.sp = 0) : s.pop = .error .stackUnderflow := by
  simp [State.pop, h]

theorem CallStack.wf_put {p : Params} {k : CallStack} (h : CallStack.wf p k) {j : Nat} (hj : j < p.stackDepth)
    (a : Word) : CallStack.wf p (Sparse.put k j a) := by
  refine ⟨Sparse.rising_put h.1 j a, fun c hc => ?_⟩
  rcases Sparse.mem_put hc with rfl | hc
  · exact hj
  · exact h.2 c hc

/-- The range check passes exactly when no address of the range exceeds 0xFFF. -/
theorem dataRangeOk_iff (base len : Nat) : dataRangeOk base len = true ↔ len = 0 ∨ base + len - 1 ≤ 0xFFF := by
  simp [dataRangeOk]

theorem guardRange_ok {len : Nat} {s : State} (body : State) (h : len = 0 ∨ s.i.toNat + len - 1 ≤ 0xFFF) :
    guardRange len s body = .next body := by
  simp [guardRange, (dataRangeOk_iff _ _).2 h]

theorem guardRange_fault {len : Nat} {s : State} (body : State) (hl : len ≠ 0) (h : 0xFFF < s.i.toNat + len - 1) :
    guardRange len s body = takeFault .dataAddrFault s := by
  have : ¬ dataRangeOk s.i.toNat len = true := by
    rw [dataRangeOk_iff]
    omega
  simp [guardRange, this]

/-- Taking a fault answers the old state with the cause latched. -/
theorem takeFault_next {f : Fault} {s t : State} (h : takeFault f s = .next t) : t = { s with fault := some f } := by
  simpa [takeFault] using h.symm

theorem skipIf_eq (c : Bool) (s : State) : skipIf c s = .next (s.setPc (if c then s.pc + 2#16 + 2#16 else s.pc + 2#16)) := by
  cases c <;> rfl

theorem State.bumpIndex_eq (s : State) (len : Nat) :
    s.bumpIndex len = s.setI (if s.qLdst then s.i + BitVec.ofNat 16 len else s.i) := by
  unfold State.bumpIndex
  split <;> rfl

theorem keyIndex_ok {s : State} {x : Nibble} (h : (s.getV x).toNat ≤ 15) : keyIndex s x = .ok (s.getV x).toNat := by
  simp [keyIndex, Nat.not_lt.2 h]

theorem keyIndex_fault {s : State} {x : Nibble} (h : 15 < (s.getV x).toNat) : keyIndex s x = .error .keyIndexFault := by
  simp [keyIndex, h]

theorem State.fetch_ok {s : State} (h : s.pc.toNat ≤ 0xFFE) :
    s.fetch = .ok [s.byteAt s.pc.toNat, s.byteAt (s.pc.toNat + 1)] := by
  simp [State.fetch, Nat.not_lt.2 h]

theorem State.fetch_fault {s : State} (h : 0xFFE < s.pc.toNat) : s.fetch = .error .fetchAddrFault := by
  simp [State.fetch, h]

/-- The least key that is down, and none only when all are up. -/
theorem lowestKey_some {s : State} {k : Nat} (h : lowestKey s = some k) :
    k < 16 ∧ s.keyDown k = true ∧ ∀ j < k, s.keyDown j = false := by
  unfold lowestKey at h
  rw [List.find?_range_eq_some] at h
  obtain ⟨h₁, h₂, h₃⟩ := h
  exact ⟨by simpa using h₂, h₁, fun j hj => by simpa using h₃ j hj⟩

theorem lowestKey_none {s : State} (h : lowestKey s = none) : ∀ k < 16, s.keyDown k = false := by
  unfold lowestKey at h
  rw [List.find?_eq_none] at h
  intro k hk
  simpa using h k (by simpa using hk)

end Sys2Proof.Machine
end

