-- ==== Sys2Proof/Laws/PerInstr.lean ====
section
/-! SUPPORT. A statement about every instruction as syntax, one lemma per constructor: its encoded word lies in its own
row of the opcode table (spec/30_encoding.md rule R53). -/

namespace Sys2Proof.Laws.EncodeInRow

/-- The instruction's row is one of the table's, and the instruction's word matches it. -/
def Statement (i : Instr) : Prop := rowOf i ∈ opcodeTable ∧ encode i &&& (rowOf i).mask = (rowOf i).pattern

theorem cls : Statement .cls := ⟨by decide, rfl⟩

theorem ret : Statement .ret := ⟨by decide, rfl⟩

theorem jp (nnn : Addr12) : Statement (.jp nnn) := ⟨by simp only [rowOf]; decide, wordNNN_mask _ _⟩

theorem call (nnn : Addr12) : Statement (.call nnn) := ⟨by simp only [rowOf]; decide, wordNNN_mask _ _⟩

theorem seImm (x : Nibble) (nn : Byte) : Statement (.seImm x nn) := ⟨by simp only [rowOf]; decide, wordXNN_mask _ _ _⟩

theorem sneImm (x : Nibble) (nn : Byte) : Statement (.sneImm x nn) := ⟨by simp only [rowOf]; decide, wordXNN_mask _ _ _⟩

theorem seReg (x y : Nibble) : Statement (.seReg x y) := ⟨by simp only [rowOf]; decide, wordXY_mask _ _ _ _⟩

theorem ldImm (x : Nibble) (nn : Byte) : Statement (.ldImm x nn) := ⟨by simp only [rowOf]; decide, wordXNN_mask _ _ _⟩

theorem addImm (x : Nibble) (nn : Byte) : Statement (.addImm x nn) := ⟨by simp only [rowOf]; decide, wordXNN_mask _ _ _⟩

theorem ldReg (x y : Nibble) : Statement (.ldReg x y) := ⟨by simp only [rowOf]; decide, wordXY_mask _ _ _ _⟩

theorem orReg (x y : Nibble) : Statement (.orReg x y) := ⟨by simp only [rowOf]; decide, wordXY_mask _ _ _ _⟩

theorem andReg (x y : Nibble) : Statement (.andReg x y) := ⟨by simp only [rowOf]; decide, wordXY_mask _ _ _ _⟩

theorem xorReg (x y : Nibble) : Statement (.xorReg x y) := ⟨by simp only [rowOf]; decide, wordXY_mask _ _ _ _⟩

theorem addReg (x y : Nibble) : Statement (.addReg x y) := ⟨by simp only [rowOf]; decide, wordXY_mask _ _ _ _⟩

theorem subReg (x y : Nibble) : Statement (.subReg x y) := ⟨by simp only [rowOf]; decide, wordXY_mask _ _ _ _⟩

theorem shr (x y : Nibble) : Statement (.shr x y) := ⟨by simp only [rowOf]; decide, wordXY_mask _ _ _ _⟩

theorem subn (x y : Nibble) : Statement (.subn x y) := ⟨by simp only [rowOf]; decide, wordXY_mask _ _ _ _⟩

theorem shl (x y : Nibble) : Statement (.shl x y) := ⟨by simp only [rowOf]; decide, wordXY_mask _ _ _ _⟩

theorem sneReg (x y : Nibble) : Statement (.sneReg x y) := ⟨by simp only [rowOf]; decide, wordXY_mask _ _ _ _⟩

theorem ldI (nnn : Addr12) : Statement (.ldI nnn) := ⟨by simp only [rowOf]; decide, wordNNN_mask _ _⟩

theorem jpV0 (x : Nibble) (nnn : Addr12) : Statement (.jpV0 x nnn) := ⟨by simp only [rowOf]; decide, wordNNN_mask _ _⟩

theorem rnd (x : Nibble) (nn : Byte) : Statement (.rnd x nn) := ⟨by simp only [rowOf]; decide, wordXNN_mask _ _ _⟩

theorem drw (x y n : Nibble) : Statement (.drw x y n) := ⟨by simp only [rowOf]; decide, wordXYN_mask _ _ _ _⟩

theorem skp (x : Nibble) : Statement (.skp x) := ⟨by simp only [rowOf]; decide, wordX_mask _ _ _⟩

theorem sknp (x : Nibble) : Statement (.sknp x) := ⟨by simp only [rowOf]; decide, wordX_mask _ _ _⟩

theorem ldVxDt (x : Nibble) : Statement (.ldVxDt x) := ⟨by simp only [rowOf]; decide, wordX_mask _ _ _⟩

theorem ldVxKey (x : Nibble) : Statement (.ldVxKey x) := ⟨by simp only [rowOf]; decide, wordX_mask _ _ _⟩

theorem ldDtVx (x : Nibble) : Statement (.ldDtVx x) := ⟨by simp only [rowOf]; decide, wordX_mask _ _ _⟩

theorem ldStVx (x : Nibble) : Statement (.ldStVx x) := ⟨by simp only [rowOf]; decide, wordX_mask _ _ _⟩

theorem addI (x : Nibble) : Statement (.addI x) := ⟨by simp only [rowOf]; decide, wordX_mask _ _ _⟩

theorem ldFont (x : Nibble) : Statement (.ldFont x) := ⟨by simp only [rowOf]; decide, wordX_mask _ _ _⟩

theorem ldBcd (x : Nibble) : Statement (.ldBcd x) := ⟨by simp only [rowOf]; decide, wordX_mask _ _ _⟩

theorem dumpRegs (x : Nibble) : Statement (.dumpRegs x) := ⟨by simp only [rowOf]; decide, wordX_mask _ _ _⟩

theorem loadRegs (x : Nibble) : Statement (.loadRegs x) := ⟨by simp only [rowOf]; decide, wordX_mask _ _ _⟩

end Sys2Proof.Laws.EncodeInRow
end

