-- ==== Sys2Proof/Laws/Step.lean ====
section
/-! SUPPORT. The ways a step that answers a next state can have gone, and the small laws of operands and flags. -/

namespace Sys2Proof.Machine

theorem decode_pair (hi lo : Byte) :
    decode [hi, lo] = match decodeWord (hi ++ lo) with
      | .ok i => .ok (i, [])
      | .error r => .error r := rfl

/-- A step that answers a next state was not halted, and it faulted on the fetch, or faulted on the word, or ran the
meaning of the instruction at PC. -/
theorem step_cases {s t : State} (h : step s = .next t) :
    s.fault = none ∧
      ((0xFFE < s.pc.toNat ∧ t = { s with fault := some .fetchAddrFault }) ∨
        (s.pc.toNat ≤ 0xFFE ∧ (∃ r, decodeWord (wordAtPc s) = .error r) ∧
          t = { s with fault := some .invalidOpcode }) ∨
        ∃ i, Runs s i ∧ exec i s = .next t) := by
  unfold step at h
  cases hf : s.fault with
  | some f => simp [hf, haltedStep] at h
  | none =>
    refine ⟨rfl, ?_⟩
    simp only [hf] at h
    rcases Nat.lt_or_ge 0xFFE s.pc.toNat with hp | hp
    · rw [State.fetch_fault hp] at h
      exact .inl ⟨hp, takeFault_next h⟩
    · rw [State.fetch_ok hp] at h
      simp only [decode_pair] at h
      cases hd : decodeWord (wordAtPc s) with
      | error r =>
        unfold wordAtPc at hd
        rw [hd] at h
        exact .inr (.inl ⟨hp, ⟨r, rfl⟩, takeFault_next h⟩)
      | ok i =>
        refine .inr (.inr ⟨i, ⟨hf, hp, hd⟩, ?_⟩)
        unfold wordAtPc at hd
        rw [hd] at h
        exact h

theorem addrOf_toNat (nnn : Addr12) : (addrOf nnn).toNat = nnn.toNat := by
  have := nnn.isLt
  simp only [addrOf, BitVec.truncate_eq_setWidth, BitVec.toNat_setWidth]
  omega

theorem zext16_toNat (b : Byte) : (zext16 b).toNat = b.toNat := by
  have := b.isLt
  simp only [zext16, BitVec.truncate_eq_setWidth, BitVec.toNat_setWidth]
  omega

theorem flagOf_toNat (c : Bool) : (flagOf c).toNat = if c then 1 else 0 := by
  cases c <;> rfl

theorem countDown_toNat (b : Byte) : (countDown b).toNat = b.toNat - 1 := by
  revert b
  decide

/-- Where a placed instruction is fetched from, and that the fetch is not blocked by a latched fault. -/
theorem State.placeAtFetch_pc (s : State) (bytes : List Byte) :
    (s.placeAtFetch bytes).pc = if 0xFFE < s.pc.toNat then resetPc else s.pc := by
  unfold State.placeAtFetch
  rw [State.storeBlock_eq]

theorem State.placeAtFetch_fault (s : State) (bytes : List Byte) : (s.placeAtFetch bytes).fault = none := by
  unfold State.placeAtFetch
  rw [State.storeBlock_eq]

end Sys2Proof.Machine
end

