-- ==== Sys2Proof/Tests/Slice0.lean ====
section
/-! SUPPORT. The model's own tests: the ill-formed terms, the words of the encodings, one step of each instruction on a
small state (expected values from spec/95_test_vectors.md, whose row each comment names), and for each obligation with
hypotheses a witness that meets them. -/

namespace Sys2Proof.Tests

open Sys2Proof Sys2Proof.Machine

/-! ### Helpers -/

/-- Whether a step or meaning answers a next state. -/
def isNext : Result → Bool
  | .next _ => true
  | .fault _ => false
  | .refused _ => false

/-- The state after a step; the state itself where there is none. -/
def after (s : State) : State :=
  match step s with
  | .next t => t
  | .fault _ => s
  | .refused _ => s

theorem step_after {s : State} (h : isNext (step s) = true) : step s = .next (after s) := by
  unfold after
  cases hs : step s <;> simp_all [isNext]

/-- The reset state with the word `w` at 0x200 and the registers given. -/
def start (w : Nat) (vs : List (Nibble × Byte)) : State :=
  vs.foldl (fun s p => s.setV p.1 p.2) (State.reset.withFetchWord 16 w)

/-- That state with I and bytes of memory set. -/
def startAt (w : Nat) (i : Word) (vs : List (Nibble × Byte)) (bytes : List Byte) : State :=
  ((start w vs).setI i).storeBlock i.toNat bytes

/-! ### WellFormed: the one check, and an ill-formed term it refuses (rule R86) -/

theorem test_wellFormed_refuses_jpV0_with_another_x : (Instr.jpV0 0x3#4 0x210#12).wellFormed = false := by decide

theorem test_wellFormed_accepts_jpV0_with_its_x : (Instr.jpV0 0x2#4 0x210#12).wellFormed = true := by decide

/-! ### Decoding: a word of every constructor, written out from the encodings of rule R53 -/

theorem test_decode_cls : decodeTableWord 16 0b0000000011100000 = some .cls := by decide

theorem test_decode_ret : decodeTableWord 16 0b0000000011101110 = some .ret := by decide

theorem test_decode_jp : decodeTableWord 16 0b0001001001001110 = some (.jp 0x24E#12) := by decide

theorem test_decode_call : decodeTableWord 16 0b0010001000001010 = some (.call 0x20A#12) := by decide

theorem test_decode_seImm : decodeTableWord 16 0b0011111100000001 = some (.seImm 0xF#4 0x01#8) := by decide

theorem test_decode_sneImm : decodeTableWord 16 0b0100101000010000 = some (.sneImm 0xA#4 0x10#8) := by decide

theorem test_decode_seReg : decodeTableWord 16 0b0101000100100000 = some (.seReg 0x1#4 0x2#4) := by decide

theorem test_decode_ldImm : decodeTableWord 16 0b0110101001110111 = some (.ldImm 0xA#4 0x77#8) := by decide

theorem test_decode_addImm : decodeTableWord 16 0b0111000011111111 = some (.addImm 0x0#4 0xFF#8) := by decide

theorem test_decode_ldReg : decodeTableWord 16 0b1000111110100000 = some (.ldReg 0xF#4 0xA#4) := by decide

theorem test_decode_orReg : decodeTableWord 16 0b1000101010110001 = some (.orReg 0xA#4 0xB#4) := by decide

theorem test_decode_andReg : decodeTableWord 16 0b1000101010110010 = some (.andReg 0xA#4 0xB#4) := by decide

theorem test_decode_xorReg : decodeTableWord 16 0b1000101010110011 = some (.xorReg 0xA#4 0xB#4) := by decide

theorem test_decode_addReg : decodeTableWord 16 0b1000101010110100 = some (.addReg 0xA#4 0xB#4) := by decide

theorem test_decode_subReg : decodeTableWord 16 0b1000101010110101 = some (.subReg 0xA#4 0xB#4) := by decide

theorem test_decode_shr : decodeTableWord 16 0b1000101010110110 = some (.shr 0xA#4 0xB#4) := by decide

theorem test_decode_subn : decodeTableWord 16 0b1000101010110111 = some (.subn 0xA#4 0xB#4) := by decide

theorem test_decode_shl : decodeTableWord 16 0b1000101010111110 = some (.shl 0xA#4 0xB#4) := by decide

theorem test_decode_sneReg : decodeTableWord 16 0b1001101010110000 = some (.sneReg 0xA#4 0xB#4) := by decide

theorem test_decode_ldI : decodeTableWord 16 0b1010001100000000 = some (.ldI 0x300#12) := by decide

theorem test_decode_jpV0 : decodeTableWord 16 0b1011001000010000 = some (.jpV0 0x2#4 0x210#12) := by decide

theorem test_decode_rnd : decodeTableWord 16 0b1100001100001111 = some (.rnd 0x3#4 0x0F#8) := by decide

theorem test_decode_drw : decodeTableWord 16 0b1101000100100101 = some (.drw 0x1#4 0x2#4 0x5#4) := by decide

theorem test_decode_skp : decodeTableWord 16 0b1110010110011110 = some (.skp 0x5#4) := by decide

theorem test_decode_sknp : decodeTableWord 16 0b1110010110100001 = some (.sknp 0x5#4) := by decide

theorem test_decode_ldVxDt : decodeTableWord 16 0b1111010000000111 = some (.ldVxDt 0x4#4) := by decide

theorem test_decode_ldVxKey : decodeTableWord 16 0b1111001100001010 = some (.ldVxKey 0x3#4) := by decide

theorem test_decode_ldDtVx : decodeTableWord 16 0b1111001100010101 = some (.ldDtVx 0x3#4) := by decide

theorem test_decode_ldStVx : decodeTableWord 16 0b1111001000011000 = some (.ldStVx 0x2#4) := by decide

theorem test_decode_addI : decodeTableWord 16 0b1111000100011110 = some (.addI 0x1#4) := by decide

theorem test_decode_ldFont : decodeTableWord 16 0b1111000000101001 = some (.ldFont 0x0#4) := by decide

theorem test_decode_ldBcd : decodeTableWord 16 0b1111000000110011 = some (.ldBcd 0x0#4) := by decide

theorem test_decode_dumpRegs : decodeTableWord 16 0b1111001001010101 = some (.dumpRegs 0x2#4) := by decide

theorem test_decode_loadRegs : decodeTableWord 16 0b1111100101100101 = some (.loadRegs 0x9#4) := by decide

/-- Invalid words by the groups of rule R54, and the rows of 95_test_vectors.md section 2.10. -/
theorem test_decode_rejects_by_name :
    decodeWord 0x0000#16 = .error .invalidFamily0 ∧ decodeWord 0x0EE0#16 = .error .invalidFamily0 ∧
    decodeWord 0x5AB1#16 = .error .invalidFamily5 ∧ decodeWord 0x8128#16 = .error .invalidFamily8 ∧
    decodeWord 0x9AB5#16 = .error .invalidFamily9 ∧ decodeWord 0xE59F#16 = .error .invalidFamilyE ∧
    decodeWord 0xFFFF#16 = .error .invalidFamilyF ∧ decode [0x12#8] = .error .tooShort := by decide

/-- Rule R53: the rows are disjoint. Two rows overlap only if their patterns agree on the bits both masks fix. -/
theorem test_opcode_rows_disjoint :
    opcodeTable.Pairwise (fun a b => a.pattern &&& (a.mask &&& b.mask) ≠ b.pattern &&& (a.mask &&& b.mask)) := by
  decide

/-! ### One step of each instruction (95_test_vectors.md) -/

/-- T1. -/
theorem test_cls_unsets_pixels :
    let t := after ((start 0x00E0 []).setFb (Display.flip (Display.flip resetFb 0 0) 63 31))
    t.fb = resetFb ∧ t.pc = 0x202#16 := by decide

/-- T2. -/
theorem test_ret_pops :
    let t := after { start 0x00EE [] with sp := 2, stack := [(0, 0x300#16), (1, 0x456#16)] }
    t.pc = 0x456#16 ∧ t.sp = 1 ∧ t.stackAt 1 = 0x456#16 := by decide

/-- T3, P6. -/
theorem test_ret_underflows :
    (after (start 0x00EE [])).faultReg = 3#3 ∧ (after (start 0x00EE [])).pc = 0x200#16 := by decide

/-- T5. -/
theorem test_jp_odd_target :
    (after (start 0x1201 [])).pc = 0x201#16 := by decide

/-- T6, at 0x200. -/
theorem test_call_pushes_last_entry :
    let t := after { start 0x2ABC [] with sp := 15 }
    t.stackAt 15 = 0x202#16 ∧ t.sp = 16 ∧ t.pc = 0xABC#16 := by decide

/-- T7, at 0x200. -/
theorem test_call_overflows :
    let t := after { start 0x2ABC [] with sp := 16 }
    t.faultReg = 2#3 ∧ t.sp = 16 ∧ t.pc = 0x200#16 := by decide

/-- T8, T9. -/
theorem test_seImm_skips_on_equal :
    (after (start 0x3F01 [(0xF, 0x01)])).pc = 0x204#16 ∧ (after (start 0x3A10 [(0xA, 0x11)])).pc = 0x202#16 := by decide

/-- T10, T11. -/
theorem test_sneImm_skips_on_unequal :
    (after (start 0x4A10 [(0xA, 0x11)])).pc = 0x204#16 ∧ (after (start 0x4A11 [(0xA, 0x11)])).pc = 0x202#16 := by decide

/-- T12, T13. -/
theorem test_seReg_skips_on_equal :
    (after (start 0x5AA0 [(0xA, 0x99)])).pc = 0x204#16 ∧ (after (start 0x5AB0 [(0xA, 0x01), (0xB, 0x02)])).pc = 0x202#16 := by decide

/-- T15, T16. -/
theorem test_sneReg_skips_on_unequal :
    (after (start 0x9AB0 [(0xA, 0x01), (0xB, 0x02)])).pc = 0x204#16 ∧ (after (start 0x9AA0 [(0xA, 0x01)])).pc = 0x202#16 := by decide

/-- T18. -/
theorem test_ldImm_vf_is_ordinary :
    (after (start 0x6FFF [])).getV 0xF = 0xFF#8 := by decide

/-- T19. -/
theorem test_addImm_wraps_without_flag :
    let t := after (start 0x7301 [(0x3, 0xFF), (0xF, 0x55)])
    t.getV 0x3 = 0x00#8 ∧ t.getV 0xF = 0x55#8 := by decide

/-- T21. -/
theorem test_ldReg_into_vf :
    (after (start 0x8FA0 [(0xA, 0x12), (0xF, 0x01)])).getV 0xF = 0x12#8 := by decide

/-- T22. -/
theorem test_orReg_leaves_vf :
    let t := after (start 0x8AB1 [(0xA, 0xA0), (0xB, 0x0A), (0xF, 0x07)])
    t.getV 0xA = 0xAA#8 ∧ t.getV 0xF = 0x07#8 := by decide

/-- T23. -/
theorem test_andReg :
    (after (start 0x8AB2 [(0xA, 0xAC), (0xB, 0x0F)])).getV 0xA = 0x0C#8 := by decide

/-- T24. -/
theorem test_xorReg_with_itself :
    (after (start 0x8AA3 [(0xA, 0x5A)])).getV 0xA = 0x00#8 := by decide

/-- S2, T25. -/
theorem test_addReg_carry :
    let t := after (start 0x8124 [(0x1, 0xFF), (0x2, 0x01)])
    t.getV 0x1 = 0x00#8 ∧ t.getV 0xF = 0x01#8 := by decide

/-- T30. -/
theorem test_addReg_x_is_vf :
    (after (start 0x8F14 [(0xF, 0x10), (0x1, 0x01)])).getV 0xF = 0x00#8 := by decide

/-- S3, T32. -/
theorem test_subReg_borrow :
    let t := after (start 0x8125 [(0x1, 0x01), (0x2, 0x02)])
    t.getV 0x1 = 0xFF#8 ∧ t.getV 0xF = 0x00#8 := by decide

/-- T34. -/
theorem test_subReg_equal_operands :
    let t := after (start 0x8125 [(0x1, 0x07), (0x2, 0x07), (0xF, 0x01)])
    t.getV 0x1 = 0x00#8 ∧ t.getV 0xF = 0x00#8 := by decide

/-- S4, T37. -/
theorem test_shr_quirk_off :
    let t := after (start 0x8126 [(0x1, 0x05), (0x2, 0x08)])
    t.getV 0x1 = 0x02#8 ∧ t.getV 0xF = 0x01#8 := by decide

/-- S4, T38. -/
theorem test_shr_quirk_on :
    let t := after { start 0x8126 [(0x1, 0x05), (0x2, 0x08)] with qShift := true }
    t.getV 0x1 = 0x04#8 ∧ t.getV 0xF = 0x00#8 ∧ t.getV 0x2 = 0x08#8 := by decide

/-- T41. -/
theorem test_subn :
    let t := after (start 0x8127 [(0x1, 0x03), (0x2, 0x0A)])
    t.getV 0x1 = 0x07#8 ∧ t.getV 0xF = 0x01#8 := by decide

/-- T42. -/
theorem test_subn_borrow :
    let t := after (start 0x8127 [(0x1, 0x0A), (0x2, 0x03)])
    t.getV 0x1 = 0xF9#8 ∧ t.getV 0xF = 0x00#8 := by decide

/-- T44. -/
theorem test_shl_quirk_off :
    let t := after (start 0x812E [(0x1, 0x81), (0x2, 0x40)])
    t.getV 0x1 = 0x02#8 ∧ t.getV 0xF = 0x01#8 := by decide

/-- T46b. -/
theorem test_shl_quirk_on_y_is_vf :
    let t := after { start 0x81FE [(0xF, 0xC1), (0x1, 0x01)] with qShift := true }
    t.getV 0x1 = 0x82#8 ∧ t.getV 0xF = 0x01#8 := by decide

/-- T49. -/
theorem test_ldI :
    (after (start 0xAFFF [])).i = 0x0FFF#16 := by decide

/-- T52. -/
theorem test_jpV0_quirk_off_not_masked :
    (after (start 0xBFFF [(0x0, 0xFF)])).pc = 0x10FE#16 := by decide

/-- T51. -/
theorem test_jpV0_quirk_on :
    (after { start 0xB210 [(0x0, 0x04), (0x2, 0x10)] with qJump := true }).pc = 0x220#16 := by decide

/-- T54: mask 0 gives 0 whatever the free byte is. -/
theorem test_rnd_mask_zero : (after (start 0xC300 [(0x3, 0x09)])).getV 0x3 = 0x00#8 :=
  BitVec.and_zero

/-- D2. -/
theorem test_drw_start_wraps :
    let t := after (startAt 0xD011 0x300#16 [(0x0, 0x47), (0x1, 0x21)] [0x81#8])
    t.pixel 7 1 = true ∧ t.pixel 14 1 = true ∧ t.pixel 8 1 = false ∧ t.getV 0xF = 0x00#8 := by decide

/-- P3 step 6, with the default font. -/
theorem test_drw_glyph_clips :
    let t := after ((start 0xD125 [(0x1, 0x3E), (0x2, 0x1E)]).setI 0x32#16)
    displayBit t 1982 = true ∧ displayBit t 1983 = true ∧ displayBit t 2046 = true ∧ displayBit t 2047 = false ∧
      displayBit t 0 = false ∧ t.getV 0xF = 0x00#8 := by decide

/-- E1, E2. -/
theorem test_skp_key_down :
    (after { start 0xE59E [(0x5, 0x0B)] with keys := 0x0800#16 }).pc = 0x204#16 ∧
      (after (start 0xE59E [(0x5, 0x0B)])).pc = 0x202#16 := by decide

/-- E5. -/
theorem test_skp_key_number_not_masked :
    (after { start 0xE59E [(0x5, 0x10)] with keys := 0x0001#16 }).faultReg = 6#3 := by decide

/-- E3, E4. -/
theorem test_sknp_key_up :
    (after { start 0xE5A1 [(0x5, 0x0B)] with keys := 0x0800#16 }).pc = 0x202#16 ∧
      (after (start 0xE5A1 [(0x5, 0x0B)])).pc = 0x204#16 := by decide

/-- F1. -/
theorem test_ldVxDt :
    (after ((start 0xF407 []).setDt 0x04#8)).getV 0x4 = 0x04#8 := by decide

/-- S7, F2. -/
theorem test_ldVxKey_spins :
    after (start 0xF30A []) = start 0xF30A [] := by decide

/-- F3. -/
theorem test_ldVxKey_lowest_wins :
    let t := after { start 0xF30A [] with keys := 0x0880#16 }
    t.getV 0x3 = 0x07#8 ∧ t.pc = 0x202#16 := by decide

/-- F4. -/
theorem test_ldDtVx :
    (after (start 0xF315 [(0x3, 0x07)])).dt = 0x07#8 := by decide

/-- F5. -/
theorem test_ldStVx :
    (after (start 0xF218 [(0x2, 0x1E)])).st = 0x1E#8 := by decide

/-- F6. -/
theorem test_addI_masks_without_flag :
    let t := after ((start 0xF11E [(0x1, 0x20), (0xF, 0x09)]).setI 0x0FF0#16)
    t.i = 0x0010#16 ∧ t.getV 0xF = 0x09#8 := by decide

/-- F6c. -/
theorem test_addI_brings_index_back :
    (after ((start 0xF11E []).setI 0x1000#16)).i = 0x0000#16 := by decide

/-- F7, with the default base. -/
theorem test_ldFont_low_nibble :
    (after (start 0xF029 [(0x0, 0x1A)])).i = 0x0032#16 := by decide

/-- S6, F8. -/
theorem test_ldBcd :
    let t := after ((start 0xF033 [(0x0, 0xFF)]).setI 0x300#16)
    t.byteAt 0x300 = 0x02#8 ∧ t.byteAt 0x301 = 0x05#8 ∧ t.byteAt 0x302 = 0x05#8 := by decide

/-- F8d. -/
theorem test_ldBcd_past_memory :
    let t := after ((start 0xF033 [(0x0, 0x6D)]).setI 0x0FFE#16)
    t.faultReg = 5#3 ∧ t.pc = 0x200#16 ∧ t.mem = (start 0xF033 []).mem := by decide

/-- F9. -/
theorem test_dumpRegs :
    let t := after (startAt 0xF255 0x400#16 [(0x0, 0x10), (0x1, 0x11), (0x2, 0x12)] [0x00#8, 0x00#8, 0x00#8, 0xEE#8])
    t.byteAt 0x400 = 0x10#8 ∧ t.byteAt 0x402 = 0x12#8 ∧ t.byteAt 0x403 = 0xEE#8 ∧ t.i = 0x400#16 := by decide

/-- F10q. -/
theorem test_dumpRegs_quirk_leaves_twelve_bits :
    let t := after { (start 0xFF55 [(0xF, 0x1F)]).setI 0x0FF0#16 with qLdst := true }
    t.byteAt 0xFFF = 0x1F#8 ∧ t.i = 0x1000#16 := by decide

/-- F12. -/
theorem test_loadRegs :
    let t := after (startAt 0xF265 0x400#16 [(0x3, 0x77)] [0x01#8, 0x02#8, 0x03#8, 0x04#8])
    t.getV 0x0 = 0x01#8 ∧ t.getV 0x2 = 0x03#8 ∧ t.getV 0x3 = 0x77#8 ∧ t.i = 0x400#16 := by decide

/-- F13. -/
theorem test_loadRegs_past_memory :
    (after ((start 0xF065 []).setI 0x1000#16)).faultReg = 5#3 := by decide

/-! ### Fetch, faults, memory and host moves -/

/-- X2. -/
theorem test_fetch_outside_memory_faults :
    (after { State.reset with pc := 0x0FFF#16 }).faultReg = 4#3 ∧
      (after { State.reset with pc := 0x0FFF#16 }).pc = 0x0FFF#16 := by decide

/-- T7b. -/
theorem test_invalid_word_faults :
    (after (start 0x0000 [])).faultReg = 1#3 ∧ (after (start 0x0000 [])).pc = 0x200#16 := by decide

/-- X4. -/
theorem test_halted_step_reports :
    stepStatus { State.reset with fault := some .stackOverflow } = some .stackOverflow := by decide

/-- X5. -/
theorem test_tick_works_while_halted :
    (tickDelay { State.reset.setDt 0x03#8 with fault := some .stackOverflow }).dt = 0x02#8 := by decide

/-- S8, H1. -/
theorem test_tick_saturates :
    (tickDelay (tickDelay (State.reset.setDt 0x01#8))).dt = 0x00#8 := by decide

/-- H4. -/
theorem test_load_overwrites_only_its_bytes :
    let t := (load [0xAA#8] (load [0x11#8, 0x22#8, 0x33#8] State.reset).2).2
    t.byteAt 0x200 = 0xAA#8 ∧ t.byteAt 0x201 = 0x22#8 ∧ t.byteAt 0x202 = 0x33#8 := by decide

/-- H3. -/
theorem test_load_too_long_is_rejected : load (List.replicate 3585 0x00#8) State.reset = (.rejected, State.reset) := by
  unfold load
  rw [List.length_replicate]
  exact if_pos (by decide)

/-- H5. -/
theorem test_set_key :
    (setKey 0x4 true State.reset).keys = 0x0010#16 ∧ (setKey 0x4 false (setKey 0x4 true State.reset)).keys = 0x0000#16 := by decide

/-- H6. -/
theorem test_reset_from_any_state :
    let t := hostReset true false true ((start 0x00EE [(0x1, 0x44)]).setByte 0x0 0x00#8)
    t.qShift = true ∧ t.qJump = false ∧ t.qLdst = true ∧ t.pc = 0x200#16 ∧ t.faultReg = 0#3 ∧ t.byteAt 0x0 = 0xF0#8 ∧ t.getV 0x1 = 0x00#8 := by decide

/-- R16, R24: glyph 0, row 1 is 0x90. -/
theorem test_font_byte_written_back_is_unlisted :
    ((State.reset.setByte 0x1 0x00#8).setByte 0x1 0x90#8).mem = [] := by decide

/-- P5, at 0x200. -/
theorem test_self_modified_word_runs_next :
    let s := (start 0xF155 [(0x0, 0x6A), (0x1, 0x77)]).setI 0x0202#16
    (after (after s)).getV 0xA = 0x77#8 := by decide

/-! ### Witnesses: concrete states and operands that meet the hypotheses of each obligation -/

/-- A state that meets the invariant, with a call in progress. -/
def called : State := after (start 0x2300 [])

theorem witness_DecodeOfEncodeIsTheInstruction :
    (Instr.jpV0 0x2#4 0x210#12).wellFormed = true ∧ (Instr.drw 0xF#4 0xF#4 0xF#4).wellFormed = true := by decide

theorem witness_EncodeOfDecodeIsTheWord :
    decodeWord 0xB210#16 = .ok (.jpV0 0x2#4 0x210#12) := by decide

theorem witness_StepRunsTheDecodedInstruction :
    let s := { State.reset with pc := 0x0FFE#16, mem := [(0xFFE, 0x60#8), (0xFFF, 0x01#8)] }
    s.fault = none ∧ s.pc.toNat ≤ 0xFFE ∧
      decodeWord (s.byteAt s.pc.toNat ++ s.byteAt (s.pc.toNat + 1)) = .ok (.ldImm 0x0#4 0x01#8) := by decide

theorem witness_StepRunsTheWordStoredAtTheFetch : decodeTableWord 16 0xD125 = some (.drw 0x1#4 0x2#4 0x5#4) := by decide

theorem witness_HaltedStepReportsTheLatchedCause :
    ({ State.reset with fault := some .keyIndexFault } : State).fault = some .keyIndexFault ∧
      step (start 0x00EE []) = .next (after (start 0x00EE [])) :=
  ⟨rfl, step_after (by decide)⟩

theorem witness_FetchOutsideMemoryRaisesFetchAddrFault :
    let s := { State.reset with pc := 0x0FFF#16 }
    s.fault = none ∧ 0xFFE < s.pc.toNat := by decide

theorem witness_WordOutsideTheTableRaisesInvalidOpcode :
    (start 0x8128 []).fault = none ∧ (start 0x8128 []).pc.toNat ≤ 0xFFE ∧
      ∀ row ∈ opcodeTable, row.matches (wordAtPc (start 0x8128 [])) = false := by decide

theorem witness_RunningStepAlwaysAnswersANextState : State.reset.fault = none := by decide

theorem witness_FaultingStepChangesOnlyFault :
    (start 0x00EE []).fault = none ∧ step (start 0x00EE []) = .next (after (start 0x00EE [])) ∧
      (after (start 0x00EE [])).fault = some .stackUnderflow :=
  ⟨by decide, step_after (by decide), by decide⟩

theorem witness_StackFaultsOnEmptyAndFull :
    State.reset.sp = 0 ∧ ({ State.reset with sp := 16 } : State).params.stackDepth ≤ 16 := by decide

/-- Each clause at the first address that faults. -/
theorem witness_RangesPastMemoryRaiseDataAddrFault :
    (0x3#4 ≠ 0#4 ∧ 0xFFF < (State.reset.setI 0x0FFE#16).i.toNat + (0x3#4).toNat - 1) ∧
      0xFFF < (State.reset.setI 0x0FFE#16).i.toNat + 2 ∧
      0xFFF < (State.reset.setI 0x0FF1#16).i.toNat + (0xF#4).toNat ∧
      0xFFF < (State.reset.setI 0x1000#16).i.toNat + (0x0#4).toNat := by decide

theorem witness_KeyNumbersAboveFifteenRaiseKeyIndexFault :
    15 < ((State.reset.setV 0x5 0x10#8).getV 0x5).toNat := by decide

theorem witness_EveryInstructionCompletesWithinTheAccessMatrix :
    handlerFault (.drw 0x0#4 0x1#4 0x3#4) (State.reset.setI 0x0FFD#16) = none ∧
      handlerFault (.call 0x300#12) State.reset = none ∧
      handlerFault .ret called = none ∧ handlerFault (.dumpRegs 0xF#4) (State.reset.setI 0x0FF0#16) = none := by decide

theorem witness_StepKeepsTheInvariant :
    called.Inv ∧ called.sp = 1 ∧ step (called.withFetchWord 16 0x00EE) = .next (after (called.withFetchWord 16 0x00EE)) ∧
      (called.withFetchWord 16 0x00EE).Inv :=
  ⟨by decide, by decide, step_after (by decide), by decide⟩

theorem witness_HostMovesKeepTheInvariant : called.Inv := by decide

theorem witness_StepKeepsKeysQuirksAndParameters : step (start 0x6A77 []) = .next (after (start 0x6A77 [])) :=
  step_after (by decide)

theorem witness_DisplayChangesOnlyByClearAndDraw :
    let s := startAt 0xD011 0x300#16 [] [0xFF#8]
    isNext (step s) = true ∧ (after s).fb ≠ s.fb := by decide

theorem witness_MemoryChangesOnlyByBcdAndRegisterDump :
    let s := startAt 0xF033 0x300#16 [(0x0, 0xFF)] [0x00#8]
    isNext (step s) = true ∧ (after s).byteAt 0x300 ≠ s.byteAt 0x300 := by decide

theorem witness_StackChangesOnlyByCallAndReturn :
    isNext (step (start 0x2300 [])) = true ∧ called.sp ≠ (start 0x2300 []).sp := by decide

theorem witness_TimersChangeOnlyByTimerWrites :
    isNext (step (start 0xF315 [(0x3, 0x07)])) = true ∧ (after (start 0xF315 [(0x3, 0x07)])).dt ≠ 0x00#8 ∧
      isNext (step (start 0xF218 [(0x2, 0x1E)])) = true ∧ (after (start 0xF218 [(0x2, 0x1E)])).st ≠ 0x00#8 := by decide

theorem witness_NoStepReadsTheSoundTimer : step (start 0xF218 [(0x2, 0x1E)]) = .next (after (start 0xF218 [(0x2, 0x1E)])) :=
  step_after (by decide)

theorem witness_ReturnPopsTheNewestEntryIntoPc : 0 < called.sp := by decide

theorem witness_CallPushesTheNextAddressAndJumps :
    ({ State.reset with sp := 15 } : State).sp < ({ State.reset with sp := 15 } : State).params.stackDepth := by decide

theorem witness_ReturnAfterCallComesBack :
    State.reset.sp < State.reset.params.stackDepth ∧ isNext (exec (.call 0x300#12) State.reset) = true := by decide

theorem witness_DrawXorsTheSpriteAndSetsVfOnCollision :
    (0x0#4 = 0#4 ∨ (State.reset.setI 0x1000#16).i.toNat + (0x0#4).toNat - 1 ≤ 0xFFF) ∧
      (0x3#4 = 0#4 ∨ (State.reset.setI 0x0FFD#16).i.toNat + (0x3#4).toNat - 1 ≤ 0xFFF) := by decide

theorem witness_DrawingTwiceRestoresTheDisplay :
    0x0#4 ≠ vf ∧ 0x1#4 ≠ vf ∧ (0x1#4 = 0#4 ∨ (State.reset.setI 0x0FFF#16).i.toNat + (0x1#4).toNat - 1 ≤ 0xFFF) := by decide

theorem witness_KeySkipsFollowTheKeyInVx : ((State.reset.setV 0x5 0x0F#8).getV 0x5).toNat ≤ 15 := by decide

theorem witness_KeyWaitTakesTheLowestKeyOrSpins :
    (State.keyDown { State.reset with keys := 0x8000#16 } 15 = true ∧
      ∀ j < 15, State.keyDown { State.reset with keys := 0x8000#16 } j = false) ∧
      ∀ k < 16, State.reset.keyDown k = false := by decide

theorem witness_FontLookupPointsIAtTheGlyph :
    State.reset.params.wf ∧ Sparse.get? State.reset.mem (0x4B + 4) = none := by decide

theorem witness_BcdStoresThreeDigitsAtI : (State.reset.setI 0x0FFD#16).i.toNat + 2 ≤ 0xFFF := by decide

theorem witness_RegisterDumpStoresV0ToVxAtI : (State.reset.setI 0x0FF0#16).i.toNat + (0xF#4).toNat ≤ 0xFFF := by decide

theorem witness_RegisterLoadReadsV0ToVxFromI : (State.reset.setI 0x0FFF#16).i.toNat + (0x0#4).toNat ≤ 0xFFF := by decide

theorem witness_LoadCopiesTheImageOrIsRejected :
    (List.replicate 3584 0x00#8).length ≤ 3584 ∧ 3584 < (List.replicate 3585 0x00#8).length := by
  rw [List.length_replicate, List.length_replicate]
  decide

theorem witness_FirstStepAfterLoadRunsTheFirstWord :
    ([] : List Byte).length ≤ 3582 ∧ decodeWord (0x12#8 ++ 0x4E#8 : Word) = .ok (.jp 0x24E#12) := by decide

end Sys2Proof.Tests
end

section
/-! PROOFS. Families 0, 1, 2: clear and jump (spec/41_fam0_1_2_clear_return_jump_call.md rules R65, R67). -/

namespace Sys2Proof

/-! ### The words of families 0 and 1 -/

theorem decodeWord_of_fieldOp_zero {w : Word} (h : fieldOp w = 0x0#4) : decodeWord w = decodeFamily0 w := by
  simp [decodeWord, h]

theorem decodeFamily0_eq_cls_iff (w : Word) : decodeFamily0 w = .ok .cls ↔ fieldNNN w = 0x0E0#12 := by
  unfold decodeFamily0
  split_ifs with hcls hret <;> simp [hcls]

/-- No other family has `CLS` among its results: those that route further (5, 8, 9, E, F) are split once more, the rest
answer another instruction at once. -/
theorem fieldOp_of_decodeWord_eq_cls {w : Word} (h : decodeWord w = .ok .cls) : fieldOp w = 0x0#4 := by
  unfold decodeWord at h
  split at h
  case h_1 hop => exact BitVec.eq_of_toNat_eq hop
  case h_6 => unfold decodeFamily5 at h; split_ifs at h; cases h
  case h_9 => unfold decodeFamily8 at h; split_ifs at h <;> cases h
  case h_10 => unfold decodeFamily9 at h; split_ifs at h; cases h
  case h_15 => unfold decodeFamilyE at h; split_ifs at h <;> cases h
  case h_16 => unfold decodeFamilyF at h; split_ifs at h <;> cases h
  all_goals cases h

theorem decodeWord_eq_cls_iff (w : Word) : decodeWord w = .ok .cls ↔ w = 0x00E0#16 := by
  constructor
  · intro h
    have hop := fieldOp_of_decodeWord_eq_cls h
    rw [decodeWord_of_fieldOp_zero hop, decodeFamily0_eq_cls_iff] at h
    calc w = wordNNN (fieldOp w) (fieldNNN w) := (wordNNN_fields w).symm
      _ = wordNNN 0x0#4 0x0E0#12 := by rw [hop, h]
      _ = 0x00E0#16 := by decide
  · rintro rfl
    decide

theorem decodeWord_wordNNN_jp (nnn : Addr12) : decodeWord (wordNNN 0x1#4 nnn) = .ok (.jp nnn) := by
  simp [decodeWord]

end Sys2Proof

namespace Sys2Proof.Machine

/-! ### Frames, update by update -/

theorem Frame.refl (w : Writes) (s : State) : Frame w s s := by
  constructor <;> intros <;> rfl

/-- PC is outside every frame. -/
theorem Frame.setPc {w : Writes} {s t : State} (h : Frame w s t) (a : Word) : Frame w s (t.setPc a) := { h with }

theorem Frame.advance {w : Writes} {s t : State} (h : Frame w s t) : Frame w s t.advance := h.setPc _

theorem Frame.setFb {w : Writes} {s t : State} (h : Frame w s t) (hw : w.fb = true) (fb : Display) :
    Frame w s (t.setFb fb) :=
  { h with fb := fun hf => absurd (hw.symm.trans hf) (by decide) }

/-! ### The meanings -/

theorem exec_cls (s : State) : exec .cls s = .next (s.advance.setFb Display.clear) := rfl

theorem exec_jp (nnn : Addr12) (s : State) : exec (.jp nnn) s = .next (s.advance.setPc (addrOf nnn)) := rfl

/-! ### The obligations -/

/-- Settles O25: the word is rebuilt from its fields, and every pixel of the cleared display is unset. -/
theorem clearUnsetsEveryPixel : Obligations.ClearUnsetsEveryPixel := by
  unfold Obligations.ClearUnsetsEveryPixel
  refine ⟨decodeWord_eq_cls_iff, fun s => ⟨_, exec_cls s, ?pixels, ?pc, ?frame⟩⟩
  case pixels => exact fun col row _ _ => Display.pixel_clear col row
  case pc => rw [State.setFb_pc, State.advance_pc]
  case frame => exact (Frame.refl _ s).advance.setFb rfl _

/-- Settles O27: the fields of the assembled word are read back, and NNN is zero-extended into PC. -/
theorem jumpSetsPc : Obligations.JumpSetsPc := by
  unfold Obligations.JumpSetsPc
  refine fun nnn s => ⟨decodeWord_wordNNN_jp nnn, _, exec_jp nnn s, ?pc, ?frame⟩
  case pc => rw [State.setPc_pc, addrOf_toNat]
  case frame => exact (Frame.refl _ s).advance.setPc _

end Sys2Proof.Machine
end

section
/-! PROOFS. Families 3, 4, 5, 9: skips on an immediate comparison (spec/42_fam3_4_5_9_skips.md rules R69, R70). -/

namespace Sys2Proof

/-! ### The words of families 3 and 4 -/

theorem decodeWord_wordXNN_seImm (x : Nibble) (nn : Byte) : decodeWord (wordXNN 0x3#4 x nn) = .ok (.seImm x nn) := by
  simp [decodeWord]

theorem decodeWord_wordXNN_sneImm (x : Nibble) (nn : Byte) : decodeWord (wordXNN 0x4#4 x nn) = .ok (.sneImm x nn) := by
  simp [decodeWord]

end Sys2Proof

namespace Sys2Proof.Machine

/-! ### What a skip does -/

/-- The fetch advances PC by 2, a skip by 2 more (rule R58). -/
theorem skipIf_pc_frame (c : Bool) (s : State) : ∃ t, skipIf c s = .next t ∧
    t.pc = (if c then s.pc + 4#16 else s.pc + 2#16) ∧ Frame {} s t := by
  refine ⟨_, skipIf_eq c s, ?pc, (Frame.refl _ s).setPc _⟩
  have two_advances : s.pc + 2#16 + 2#16 = s.pc + 4#16 := BitVec.add_assoc _ _ _
  rw [State.setPc_pc, two_advances]

theorem skipIf_beq_pc_frame (a b : Byte) (s : State) : ∃ t, skipIf (a == b) s = .next t ∧
    t.pc = (if a = b then s.pc + 4#16 else s.pc + 2#16) ∧ Frame {} s t := by
  simpa only [beq_iff_eq] using skipIf_pc_frame (a == b) s

theorem skipIf_bne_pc_frame (a b : Byte) (s : State) : ∃ t, skipIf (a != b) s = .next t ∧
    t.pc = (if a = b then s.pc + 2#16 else s.pc + 4#16) ∧ Frame {} s t := by
  simpa only [bne_iff_ne, ne_eq, ite_not] using skipIf_pc_frame (a != b) s

/-! ### The meanings -/

theorem exec_seImm (x : Nibble) (nn : Byte) (s : State) : exec (.seImm x nn) s = skipIf (s.getV x == nn) s := rfl

theorem exec_sneImm (x : Nibble) (nn : Byte) (s : State) : exec (.sneImm x nn) s = skipIf (s.getV x != nn) s := rfl

/-! ### The obligation -/

/-- Settles O30: 3XNN is a skip on equality of VX and NN, 4XNN a skip on their difference. -/
theorem skipsOnImmediateComparison : Obligations.SkipsOnImmediateComparison := by
  unfold Obligations.SkipsOnImmediateComparison
  refine fun x nn s => ⟨decodeWord_wordXNN_seImm x nn, decodeWord_wordXNN_sneImm x nn, ?se, ?sne⟩
  case se => rw [exec_seImm]; exact skipIf_beq_pc_frame (s.getV x) nn s
  case sne => rw [exec_sneImm]; exact skipIf_bne_pc_frame (s.getV x) nn s

end Sys2Proof.Machine
end

section
/-! PROOFS. Families 6, 7: the immediates (spec/43_fam6_7_immediate.md rules R73, R74). -/

namespace Sys2Proof

/-! ### The words of families 6 and 7 -/

theorem decodeWord_wordXNN_ldImm (x : Nibble) (nn : Byte) : decodeWord (wordXNN 0x6#4 x nn) = .ok (.ldImm x nn) := by
  simp [decodeWord]

theorem decodeWord_wordXNN_addImm (x : Nibble) (nn : Byte) : decodeWord (wordXNN 0x7#4 x nn) = .ok (.addImm x nn) := by
  simp [decodeWord]

end Sys2Proof

namespace Sys2Proof.Machine

/-! ### What a result without a flag does -/

theorem State.getV_setV_same (s : State) (x : Nibble) (b : Byte) : (s.setV x b).getV x = b := by
  rw [State.getV_setV, if_pos rfl]

theorem State.getV_setV_of_ne {x r : Nibble} (h : r ≠ x) (s : State) (b : Byte) : (s.setV x b).getV r = s.getV r := by
  rw [State.getV_setV, if_neg h]

/-- A register outside the frame is not the one written. -/
theorem Frame.setV {w : Writes} {s t : State} (h : Frame w s t) {x : Nibble} (hx : w.v x = true) (b : Byte) :
    Frame w s (t.setV x b) where
  __ := h
  v r hr := by
    have r_ne_x : r ≠ x := by
      rintro rfl
      exact absurd (hx.symm.trans hr) (by decide)
    rw [State.getV_setV_of_ne r_ne_x, h.v r hr]

theorem regs_singleton_self (x : Nibble) : regs [x] x = true := by simp [regs]

theorem aluPlain_getV_pc_frame (x : Nibble) (r : Byte) (s : State) : ∃ t, aluPlain x r s = .next t ∧
    t.getV x = r ∧ t.pc = s.pc + 2#16 ∧ Frame { v := regs [x] } s t := by
  refine ⟨s.advance.setV x r, rfl, State.getV_setV_same _ x r, ?pc, ?frame⟩
  case pc => rw [State.setV_pc, State.advance_pc]
  case frame => exact (Frame.refl _ s).advance.setV (regs_singleton_self x) r

/-! ### The meanings -/

theorem exec_ldImm (x : Nibble) (nn : Byte) (s : State) : exec (.ldImm x nn) s = aluPlain x nn s := rfl

theorem exec_addImm (x : Nibble) (nn : Byte) (s : State) : exec (.addImm x nn) s = aluPlain x (s.getV x + nn) s := rfl

/-! ### The obligations -/

/-- Settles O32: 6XNN is a result without a flag, and the result is NN. -/
theorem loadImmediateWritesVx : Obligations.LoadImmediateWritesVx := by
  unfold Obligations.LoadImmediateWritesVx
  refine fun x nn s => ⟨decodeWord_wordXNN_ldImm x nn, ?meaning⟩
  rw [exec_ldImm]
  exact aluPlain_getV_pc_frame x nn s

/-- Settles O33: 7XNN is a result without a flag, and the result is a sum of bytes, which wraps modulo 256. -/
theorem addImmediateWrapsWithoutFlag : Obligations.AddImmediateWrapsWithoutFlag := by
  unfold Obligations.AddImmediateWrapsWithoutFlag
  refine fun x nn s => ⟨decodeWord_wordXNN_addImm x nn, ?meaning⟩
  rw [exec_addImm]
  obtain ⟨t, ht, hv, hpc, hframe⟩ := aluPlain_getV_pc_frame x (s.getV x + nn) s
  refine ⟨t, ht, ?sum, hpc, hframe⟩
  rw [hv, BitVec.toNat_add]

end Sys2Proof.Machine
end

section
/-! PROOFS. Family 8: register copy and bitwise logic (spec/44_fam8_alu.md rules R76 to R79). -/

namespace Sys2Proof

/-! ### The words of family 8 -/

theorem decodeWord_wordXYN_family8 (x y n : Nibble) :
    decodeWord (wordXYN 0x8#4 x y n) = decodeFamily8 (wordXYN 0x8#4 x y n) := by
  simp [decodeWord]

theorem decodeWord_wordXYN_ldReg (x y : Nibble) : decodeWord (wordXYN 0x8#4 x y 0x0#4) = .ok (.ldReg x y) := by
  rw [decodeWord_wordXYN_family8]; simp [decodeFamily8]

theorem decodeWord_wordXYN_orReg (x y : Nibble) : decodeWord (wordXYN 0x8#4 x y 0x1#4) = .ok (.orReg x y) := by
  rw [decodeWord_wordXYN_family8]; simp [decodeFamily8]

theorem decodeWord_wordXYN_andReg (x y : Nibble) : decodeWord (wordXYN 0x8#4 x y 0x2#4) = .ok (.andReg x y) := by
  rw [decodeWord_wordXYN_family8]; simp [decodeFamily8]

theorem decodeWord_wordXYN_xorReg (x y : Nibble) : decodeWord (wordXYN 0x8#4 x y 0x3#4) = .ok (.xorReg x y) := by
  rw [decodeWord_wordXYN_family8]; simp [decodeFamily8]

end Sys2Proof

namespace Sys2Proof.Machine

/-! ### What a result given bit by bit does -/

theorem aluPlain_bits_pc_frame {r : Byte} {bit : Nat → Bool} (hr : ∀ k, r.getLsbD k = bit k) (x : Nibble) (s : State) :
    ∃ t, aluPlain x r s = .next t ∧ (∀ k < 8, (t.getV x).getLsbD k = bit k) ∧
      t.pc = s.pc + 2#16 ∧ Frame { v := regs [x] } s t := by
  obtain ⟨t, ht, hv, hpc, hframe⟩ := aluPlain_getV_pc_frame x r s
  refine ⟨t, ht, fun k _ => ?bit, hpc, hframe⟩
  rw [hv, hr]

/-! ### The meanings -/

theorem exec_ldReg (x y : Nibble) (s : State) : exec (.ldReg x y) s = aluPlain x (s.getV y) s := rfl

theorem exec_orReg (x y : Nibble) (s : State) : exec (.orReg x y) s = aluPlain x (s.getV x ||| s.getV y) s := rfl

theorem exec_andReg (x y : Nibble) (s : State) : exec (.andReg x y) s = aluPlain x (s.getV x &&& s.getV y) s := rfl

theorem exec_xorReg (x y : Nibble) (s : State) : exec (.xorReg x y) s = aluPlain x (s.getV x ^^^ s.getV y) s := rfl

/-! ### The obligations -/

/-- Settles O34: 8XY0 is a result without a flag, and the result is VY. -/
theorem loadRegisterCopiesVyToVx : Obligations.LoadRegisterCopiesVyToVx := by
  unfold Obligations.LoadRegisterCopiesVyToVx
  refine fun x y s => ⟨decodeWord_wordXYN_ldReg x y, ?meaning⟩
  rw [exec_ldReg]
  exact aluPlain_getV_pc_frame x (s.getV y) s

/-- Settles O35: each of the three is a result without a flag, and its bits are those of the operation on VX and VY. -/
theorem logicWritesTheBitwiseResultWithoutFlag : Obligations.LogicWritesTheBitwiseResultWithoutFlag := by
  unfold Obligations.LogicWritesTheBitwiseResultWithoutFlag
  refine fun x y s => ⟨decodeWord_wordXYN_orReg x y, decodeWord_wordXYN_andReg x y, decodeWord_wordXYN_xorReg x y,
    ?or, ?and, ?xor⟩
  case or => rw [exec_orReg]; exact aluPlain_bits_pc_frame (fun _ => BitVec.getLsbD_or) x s
  case and => rw [exec_andReg]; exact aluPlain_bits_pc_frame (fun _ => BitVec.getLsbD_and) x s
  case xor => rw [exec_xorReg]; exact aluPlain_bits_pc_frame (fun _ => BitVec.getLsbD_xor) x s

end Sys2Proof.Machine
end

section
/-! PROOFS. Families A, B, C: load index (spec/45_famA_B_C_index_jumpoffset_random.md rule R85). -/

namespace Sys2Proof

/-! ### The words of family A -/

theorem decodeWord_wordNNN_ldI (nnn : Addr12) : decodeWord (wordNNN 0xA#4 nnn) = .ok (.ldI nnn) := by
  simp [decodeWord]

end Sys2Proof

namespace Sys2Proof.Machine

/-! ### Frames: an update of I -/

theorem Frame.setI {w : Writes} {s t : State} (h : Frame w s t) (hw : w.i = true) (a : Word) :
    Frame w s (t.setI a) :=
  { h with i := fun hi => absurd (hw.symm.trans hi) (by decide) }

/-! ### The meanings -/

theorem exec_ldI (nnn : Addr12) (s : State) : exec (.ldI nnn) s = .next (s.advance.setI (addrOf nnn)) := rfl

/-! ### The obligation -/

/-- Settles O41: the fields of the assembled word are read back, and NNN is zero-extended into I. -/
theorem loadIndexSetsI : Obligations.LoadIndexSetsI := by
  unfold Obligations.LoadIndexSetsI
  refine fun nnn s => ⟨decodeWord_wordNNN_ldI nnn, _, exec_ldI nnn s, ?index, ?pc, ?frame⟩
  case index => rw [State.setI_i, addrOf_toNat]
  case pc => rw [State.setI_pc, State.advance_pc]
  case frame => exact (Frame.refl _ s).advance.setI rfl _

end Sys2Proof.Machine
end

section
/-! PROOFS. Family F: timers and key wait (spec/48_famF_timers_key_index_font_bcd_block.md rules R92 to R95). -/

namespace Sys2Proof

/-! ### The words of family F -/

theorem decodeWord_wordXNN_familyF (x : Nibble) (nn : Byte) :
    decodeWord (wordXNN 0xF#4 x nn) = decodeFamilyF (wordXNN 0xF#4 x nn) := by
  simp [decodeWord]

theorem decodeWord_wordXNN_ldVxDt (x : Nibble) : decodeWord (wordXNN 0xF#4 x 0x07#8) = .ok (.ldVxDt x) := by
  rw [decodeWord_wordXNN_familyF]; simp [decodeFamilyF]

theorem decodeWord_wordXNN_ldVxKey (x : Nibble) : decodeWord (wordXNN 0xF#4 x 0x0A#8) = .ok (.ldVxKey x) := by
  rw [decodeWord_wordXNN_familyF]; simp [decodeFamilyF]

theorem decodeWord_wordXNN_ldDtVx (x : Nibble) : decodeWord (wordXNN 0xF#4 x 0x15#8) = .ok (.ldDtVx x) := by
  rw [decodeWord_wordXNN_familyF]; simp [decodeFamilyF]

theorem decodeWord_wordXNN_ldStVx (x : Nibble) : decodeWord (wordXNN 0xF#4 x 0x18#8) = .ok (.ldStVx x) := by
  rw [decodeWord_wordXNN_familyF]; simp [decodeFamilyF]

end Sys2Proof

namespace Sys2Proof.Machine

/-! ### Frames: an update of a timer -/

theorem Frame.setDt {w : Writes} {s t : State} (h : Frame w s t) (hw : w.dt = true) (b : Byte) :
    Frame w s (t.setDt b) :=
  { h with dt := fun hd => absurd (hw.symm.trans hd) (by decide) }

theorem Frame.setSt {w : Writes} {s t : State} (h : Frame w s t) (hw : w.st = true) (b : Byte) :
    Frame w s (t.setSt b) :=
  { h with st := fun hs => absurd (hw.symm.trans hs) (by decide) }

/-! ### The key scan -/

theorem lowestKey_eq_some {s : State} {k : Nat} (hk : k < 16) (hdown : s.keyDown k = true)
    (hleast : ∀ j < k, s.keyDown j = false) : lowestKey s = some k := by
  rw [lowestKey, List.find?_range_eq_some]
  exact ⟨hdown, List.mem_range.2 hk, fun j hj => by rw [hleast j hj, Bool.not_false]⟩

/-- A scan that found a key would have found one that is up. -/
theorem lowestKey_eq_none {s : State} (hup : ∀ k < 16, s.keyDown k = false) : lowestKey s = none := by
  cases hscan : lowestKey s with
  | none => rfl
  | some k =>
    obtain ⟨hk, hdown, -⟩ := lowestKey_some hscan
    exact absurd (hdown.symm.trans (hup k hk)) (by decide)

/-- The rewind undoes the fetch's advance, also where PC + 2 wraps. -/
theorem State.rewind_advance (s : State) : s.advance.rewind = s := by
  have pc_restored : s.pc + 2#16 - 2#16 = s.pc := BitVec.add_sub_cancel _ _
  rw [State.rewind, State.advance_pc, pc_restored]
  rfl

/-! ### The meanings -/

theorem exec_ldVxDt (x : Nibble) (s : State) : exec (.ldVxDt x) s = aluPlain x s.dt s := rfl

theorem exec_ldVxKey (x : Nibble) (s : State) : exec (.ldVxKey x) s = execLdVxKey x s := rfl

theorem exec_ldVxKey_of_some {s : State} {k : Nat} (h : lowestKey s = some k) (x : Nibble) :
    exec (.ldVxKey x) s = aluPlain x (BitVec.ofNat 8 k) s := by
  rw [exec_ldVxKey, execLdVxKey, h]
  rfl

theorem exec_ldVxKey_of_none {s : State} (h : lowestKey s = none) (x : Nibble) :
    exec (.ldVxKey x) s = .next s := by
  rw [exec_ldVxKey, execLdVxKey, h]
  exact congrArg _ s.rewind_advance

theorem exec_ldDtVx (x : Nibble) (s : State) : exec (.ldDtVx x) s = .next (s.advance.setDt (s.getV x)) := rfl

theorem exec_ldStVx (x : Nibble) (s : State) : exec (.ldStVx x) s = .next (s.advance.setSt (s.getV x)) := rfl

/-! ### The obligations -/

/-- Settles O48: the scan answers the least key that is down, and a key number fits a byte; with no key down the rewind
undoes the advance. -/
theorem keyWaitTakesTheLowestKeyOrSpins : Obligations.KeyWaitTakesTheLowestKeyOrSpins := by
  unfold Obligations.KeyWaitTakesTheLowestKeyOrSpins
  refine fun x s => ⟨decodeWord_wordXNN_ldVxKey x, ?takes, ?spins⟩
  case takes =>
    intro k hk hdown hleast
    rw [exec_ldVxKey_of_some (lowestKey_eq_some hk hdown hleast)]
    obtain ⟨t, ht, hv, hpc, hframe⟩ := aluPlain_getV_pc_frame x (BitVec.ofNat 8 k) s
    refine ⟨t, ht, ?key, hpc, hframe⟩
    rw [hv, BitVec.toNat_ofNat, Nat.mod_eq_of_lt (by omega)]
  case spins => exact fun hup => exec_ldVxKey_of_none (lowestKey_eq_none hup) x

/-- Settles O47: FX07 is a result without a flag, and the result is DT. -/
theorem timerReadCopiesDtToVx : Obligations.TimerReadCopiesDtToVx := by
  unfold Obligations.TimerReadCopiesDtToVx
  refine fun x s => ⟨decodeWord_wordXNN_ldVxDt x, ?meaning⟩
  rw [exec_ldVxDt]
  exact aluPlain_getV_pc_frame x s.dt s

/-- Settles O49: each of the two is one update of its own timer after the advance, so the frame keeps the other timer. -/
theorem timerWritesCopyVx : Obligations.TimerWritesCopyVx := by
  unfold Obligations.TimerWritesCopyVx
  refine fun x s => ⟨decodeWord_wordXNN_ldDtVx x, decodeWord_wordXNN_ldStVx x,
    ⟨_, exec_ldDtVx x s, State.setDt_dt _ _, ?dtPc, ?dtFrame⟩, ⟨_, exec_ldStVx x s, State.setSt_st _ _, ?stPc, ?stFrame⟩⟩
  case dtPc => rw [State.setDt_pc, State.advance_pc]
  case dtFrame => exact (Frame.refl _ s).advance.setDt rfl _
  case stPc => rw [State.setSt_pc, State.advance_pc]
  case stFrame => exact (Frame.refl _ s).advance.setSt rfl _

end Sys2Proof.Machine
end

section
/-! PROOFS. The host's timer ticks (spec/60_exceptions.md rule R120). -/

namespace Sys2Proof.Machine

/-! ### The ticks as state updates -/

theorem tickDelay_eq (s : State) : tickDelay s = s.setDt (countDown s.dt) := rfl

theorem tickSound_eq (s : State) : tickSound s = s.setSt (countDown s.st) := rfl

/-! ### The obligation -/

/-- Settles O55: each tick is one update of its own timer by the saturating count-down, so the frame keeps the other timer. -/
theorem ticksCountDownAndSaturateAtZero : Obligations.TicksCountDownAndSaturateAtZero := by
  unfold Obligations.TicksCountDownAndSaturateAtZero
  intro s
  rw [tickDelay_eq, tickSound_eq]
  refine ⟨?dt, State.setDt_pc _ _, (Frame.refl _ s).setDt rfl _, ?st, State.setSt_pc _ _, (Frame.refl _ s).setSt rfl _⟩
  case dt => rw [State.setDt_dt, countDown_toNat]
  case st => rw [State.setSt_st, countDown_toNat]

end Sys2Proof.Machine
end

section
/-! PROOFS. The encoding: encoder and decoder are inverse to each other, and the decoder accepts the opcode table
(spec/30_encoding.md rules R46, R47, R49, R53, R54). -/

namespace Sys2Proof

/-! ### Decoding an encoded word: the forms no family above has needed -/

theorem decodeWord_wordNNN_call (nnn : Addr12) : decodeWord (wordNNN 0x2#4 nnn) = .ok (.call nnn) := by
  simp [decodeWord]

theorem decodeWord_wordXYN_seReg (x y : Nibble) : decodeWord (wordXYN 0x5#4 x y 0x0#4) = .ok (.seReg x y) := by
  simp [decodeWord, decodeFamily5]

theorem decodeWord_wordXYN_addReg (x y : Nibble) : decodeWord (wordXYN 0x8#4 x y 0x4#4) = .ok (.addReg x y) := by
  rw [decodeWord_wordXYN_family8]; simp [decodeFamily8]

theorem decodeWord_wordXYN_subReg (x y : Nibble) : decodeWord (wordXYN 0x8#4 x y 0x5#4) = .ok (.subReg x y) := by
  rw [decodeWord_wordXYN_family8]; simp [decodeFamily8]

theorem decodeWord_wordXYN_shr (x y : Nibble) : decodeWord (wordXYN 0x8#4 x y 0x6#4) = .ok (.shr x y) := by
  rw [decodeWord_wordXYN_family8]; simp [decodeFamily8]

theorem decodeWord_wordXYN_subn (x y : Nibble) : decodeWord (wordXYN 0x8#4 x y 0x7#4) = .ok (.subn x y) := by
  rw [decodeWord_wordXYN_family8]; simp [decodeFamily8]

theorem decodeWord_wordXYN_shl (x y : Nibble) : decodeWord (wordXYN 0x8#4 x y 0xE#4) = .ok (.shl x y) := by
  rw [decodeWord_wordXYN_family8]; simp [decodeFamily8]

theorem decodeWord_wordXYN_sneReg (x y : Nibble) : decodeWord (wordXYN 0x9#4 x y 0x0#4) = .ok (.sneReg x y) := by
  simp [decodeWord, decodeFamily9]

/-- The register of BNNN is read from the top nibble of NNN (rule R86). -/
theorem decodeWord_wordNNN_jpV0 (nnn : Addr12) :
    decodeWord (wordNNN 0xB#4 nnn) = .ok (.jpV0 (nnn.extractLsb' 8 4) nnn) := by
  simp [decodeWord]

theorem decodeWord_wordXNN_rnd (x : Nibble) (nn : Byte) : decodeWord (wordXNN 0xC#4 x nn) = .ok (.rnd x nn) := by
  simp [decodeWord]

theorem decodeWord_wordXYN_drw (x y n : Nibble) : decodeWord (wordXYN 0xD#4 x y n) = .ok (.drw x y n) := by
  simp [decodeWord]

theorem decodeWord_wordXNN_skp (x : Nibble) : decodeWord (wordXNN 0xE#4 x 0x9E#8) = .ok (.skp x) := by
  simp [decodeWord, decodeFamilyE]

theorem decodeWord_wordXNN_sknp (x : Nibble) : decodeWord (wordXNN 0xE#4 x 0xA1#8) = .ok (.sknp x) := by
  simp [decodeWord, decodeFamilyE]

theorem decodeWord_wordXNN_addI (x : Nibble) : decodeWord (wordXNN 0xF#4 x 0x1E#8) = .ok (.addI x) := by
  rw [decodeWord_wordXNN_familyF]; simp [decodeFamilyF]

theorem decodeWord_wordXNN_ldFont (x : Nibble) : decodeWord (wordXNN 0xF#4 x 0x29#8) = .ok (.ldFont x) := by
  rw [decodeWord_wordXNN_familyF]; simp [decodeFamilyF]

theorem decodeWord_wordXNN_ldBcd (x : Nibble) : decodeWord (wordXNN 0xF#4 x 0x33#8) = .ok (.ldBcd x) := by
  rw [decodeWord_wordXNN_familyF]; simp [decodeFamilyF]

theorem decodeWord_wordXNN_dumpRegs (x : Nibble) : decodeWord (wordXNN 0xF#4 x 0x55#8) = .ok (.dumpRegs x) := by
  rw [decodeWord_wordXNN_familyF]; simp [decodeFamilyF]

theorem decodeWord_wordXNN_loadRegs (x : Nibble) : decodeWord (wordXNN 0xF#4 x 0x65#8) = .ok (.loadRegs x) := by
  rw [decodeWord_wordXNN_familyF]; simp [decodeFamilyF]

/-- Well-formedness is used for BNNN only: its register is not in the word beside NNN. -/
theorem decodeWord_encode {i : Instr} (h : i.wellFormed = true) : decodeWord (encode i) = .ok i := by
  cases i with
  | cls => decide
  | ret => decide
  | jp nnn => exact decodeWord_wordNNN_jp nnn
  | call nnn => exact decodeWord_wordNNN_call nnn
  | seImm x nn => exact decodeWord_wordXNN_seImm x nn
  | sneImm x nn => exact decodeWord_wordXNN_sneImm x nn
  | seReg x y => exact decodeWord_wordXYN_seReg x y
  | ldImm x nn => exact decodeWord_wordXNN_ldImm x nn
  | addImm x nn => exact decodeWord_wordXNN_addImm x nn
  | ldReg x y => exact decodeWord_wordXYN_ldReg x y
  | orReg x y => exact decodeWord_wordXYN_orReg x y
  | andReg x y => exact decodeWord_wordXYN_andReg x y
  | xorReg x y => exact decodeWord_wordXYN_xorReg x y
  | addReg x y => exact decodeWord_wordXYN_addReg x y
  | subReg x y => exact decodeWord_wordXYN_subReg x y
  | shr x y => exact decodeWord_wordXYN_shr x y
  | subn x y => exact decodeWord_wordXYN_subn x y
  | shl x y => exact decodeWord_wordXYN_shl x y
  | sneReg x y => exact decodeWord_wordXYN_sneReg x y
  | ldI nnn => exact decodeWord_wordNNN_ldI nnn
  | jpV0 x nnn =>
    have x_is_top_nibble : x = nnn.extractLsb' 8 4 := eq_of_beq h
    rw [x_is_top_nibble]
    exact decodeWord_wordNNN_jpV0 nnn
  | rnd x nn => exact decodeWord_wordXNN_rnd x nn
  | drw x y n => exact decodeWord_wordXYN_drw x y n
  | skp x => exact decodeWord_wordXNN_skp x
  | sknp x => exact decodeWord_wordXNN_sknp x
  | ldVxDt x => exact decodeWord_wordXNN_ldVxDt x
  | ldVxKey x => exact decodeWord_wordXNN_ldVxKey x
  | ldDtVx x => exact decodeWord_wordXNN_ldDtVx x
  | ldStVx x => exact decodeWord_wordXNN_ldStVx x
  | addI x => exact decodeWord_wordXNN_addI x
  | ldFont x => exact decodeWord_wordXNN_ldFont x
  | ldBcd x => exact decodeWord_wordXNN_ldBcd x
  | dumpRegs x => exact decodeWord_wordXNN_dumpRegs x
  | loadRegs x => exact decodeWord_wordXNN_loadRegs x

theorem decode_cons_cons_of_decodeWord {hi lo : Byte} {i : Instr} (h : decodeWord (wordOfBytes hi lo) = .ok i)
    (rest : List Byte) : decode (hi :: lo :: rest) = .ok (i, rest) := by
  rw [decode, h]

/-! ### Encoding a decoded word: a word is assembled from the fields the decoder has compared or passed on -/

theorem wordNNN_of_fields {w : Word} {op : Nibble} (hop : fieldOp w = op) : wordNNN op (fieldNNN w) = w := by
  rw [← hop, wordNNN_fields]

theorem wordXNN_of_fields {w : Word} {op : Nibble} (hop : fieldOp w = op) :
    wordXNN op (fieldX w) (fieldNN w) = w := by
  rw [← hop, wordXNN_fields]

theorem wordXYN_of_fields {w : Word} {op n : Nibble} (hop : fieldOp w = op) (hn : fieldN w = n) :
    wordXYN op (fieldX w) (fieldY w) n = w := by
  rw [← hop, ← hn, wordXYN_fields]

theorem wordX_of_fields {w : Word} {op : Nibble} {nn : Byte} (hop : fieldOp w = op) (hnn : fieldNN w = nn) :
    wordXNN op (fieldX w) nn = w := by
  rw [← hnn, wordXNN_of_fields hop]

theorem fieldX_eq_top_nibble (w : Word) : fieldX w = (fieldNNN w).extractLsb' 8 4 :=
  calc fieldX w = fieldX (wordNNN (fieldOp w) (fieldNNN w)) := by rw [wordNNN_fields]
    _ = (fieldNNN w).extractLsb' 8 4 := fieldX_wordNNN _ _

theorem encode_of_decodeFamily0 {w : Word} {i : Instr} (hop : fieldOp w = 0x0#4) (h : decodeFamily0 w = .ok i) :
    encode i = w ∧ i.wellFormed = true := by
  have word : wordNNN 0x0#4 (fieldNNN w) = w := wordNNN_of_fields hop
  unfold decodeFamily0 at h
  split_ifs at h with hcls hret <;> cases h
  · exact ⟨by rw [← word, hcls]; decide, rfl⟩
  · exact ⟨by rw [← word, hret]; decide, rfl⟩

theorem encode_of_decodeFamily5 {w : Word} {i : Instr} (hop : fieldOp w = 0x5#4) (h : decodeFamily5 w = .ok i) :
    encode i = w ∧ i.wellFormed = true := by
  unfold decodeFamily5 at h
  split_ifs at h with hn
  cases h
  exact ⟨wordXYN_of_fields hop hn, rfl⟩

/-- Each branch but the last has compared N with the low nibble its instruction is encoded with. -/
theorem encode_of_decodeFamily8 {w : Word} {i : Instr} (hop : fieldOp w = 0x8#4) (h : decodeFamily8 w = .ok i) :
    encode i = w ∧ i.wellFormed = true := by
  unfold decodeFamily8 at h
  split_ifs at h <;> cases h
  all_goals exact ⟨wordXYN_of_fields hop (by assumption), rfl⟩

theorem encode_of_decodeFamily9 {w : Word} {i : Instr} (hop : fieldOp w = 0x9#4) (h : decodeFamily9 w = .ok i) :
    encode i = w ∧ i.wellFormed = true := by
  unfold decodeFamily9 at h
  split_ifs at h with hn
  cases h
  exact ⟨wordXYN_of_fields hop hn, rfl⟩

theorem encode_of_decodeFamilyE {w : Word} {i : Instr} (hop : fieldOp w = 0xE#4) (h : decodeFamilyE w = .ok i) :
    encode i = w ∧ i.wellFormed = true := by
  unfold decodeFamilyE at h
  split_ifs at h with hskp hsknp <;> cases h
  · exact ⟨wordX_of_fields hop hskp, rfl⟩
  · exact ⟨wordX_of_fields hop hsknp, rfl⟩

/-- Each branch but the last has compared NN with the low byte its instruction is encoded with. -/
theorem encode_of_decodeFamilyF {w : Word} {i : Instr} (hop : fieldOp w = 0xF#4) (h : decodeFamilyF w = .ok i) :
    encode i = w ∧ i.wellFormed = true := by
  unfold decodeFamilyF at h
  split_ifs at h <;> cases h
  all_goals exact ⟨wordX_of_fields hop (by assumption), rfl⟩

theorem fieldOp_eq_F {w : Word} (h : ∀ k < 0xF, (fieldOp w).toNat ≠ k) : fieldOp w = 0xF#4 := by
  refine BitVec.eq_of_toNat_eq ?_
  have in_range : (fieldOp w).toNat < 16 := (fieldOp w).isLt
  have not_smaller : ¬ (fieldOp w).toNat < 0xF := fun hlt => h _ hlt rfl
  show (fieldOp w).toNat = 15
  omega

theorem encode_of_decodeWord {w : Word} {i : Instr} (h : decodeWord w = .ok i) :
    encode i = w ∧ i.wellFormed = true := by
  unfold decodeWord at h
  split at h
  case h_1 hop => exact encode_of_decodeFamily0 (BitVec.eq_of_toNat_eq hop) h
  case h_2 hop => cases h; exact ⟨wordNNN_of_fields (BitVec.eq_of_toNat_eq hop), rfl⟩
  case h_3 hop => cases h; exact ⟨wordNNN_of_fields (BitVec.eq_of_toNat_eq hop), rfl⟩
  case h_4 hop => cases h; exact ⟨wordXNN_of_fields (BitVec.eq_of_toNat_eq hop), rfl⟩
  case h_5 hop => cases h; exact ⟨wordXNN_of_fields (BitVec.eq_of_toNat_eq hop), rfl⟩
  case h_6 hop => exact encode_of_decodeFamily5 (BitVec.eq_of_toNat_eq hop) h
  case h_7 hop => cases h; exact ⟨wordXNN_of_fields (BitVec.eq_of_toNat_eq hop), rfl⟩
  case h_8 hop => cases h; exact ⟨wordXNN_of_fields (BitVec.eq_of_toNat_eq hop), rfl⟩
  case h_9 hop => exact encode_of_decodeFamily8 (BitVec.eq_of_toNat_eq hop) h
  case h_10 hop => exact encode_of_decodeFamily9 (BitVec.eq_of_toNat_eq hop) h
  case h_11 hop => cases h; exact ⟨wordNNN_of_fields (BitVec.eq_of_toNat_eq hop), rfl⟩
  case h_12 hop =>
    cases h
    exact ⟨wordNNN_of_fields (BitVec.eq_of_toNat_eq hop), beq_iff_eq.2 (fieldX_eq_top_nibble w)⟩
  case h_13 hop => cases h; exact ⟨wordXNN_of_fields (BitVec.eq_of_toNat_eq hop), rfl⟩
  case h_14 hop => cases h; exact ⟨wordXYN_of_fields (BitVec.eq_of_toNat_eq hop) rfl, rfl⟩
  case h_15 hop => exact encode_of_decodeFamilyE (BitVec.eq_of_toNat_eq hop) h
  case h_16 => exact encode_of_decodeFamilyF (fieldOp_eq_F (fun k hk hop => by interval_cases k <;> contradiction)) h

/-! ### The opcode table -/

theorem encodeInRow (i : Instr) : Laws.EncodeInRow.Statement i := by
  cases i with
  | cls => exact Laws.EncodeInRow.cls
  | ret => exact Laws.EncodeInRow.ret
  | jp nnn => exact Laws.EncodeInRow.jp nnn
  | call nnn => exact Laws.EncodeInRow.call nnn
  | seImm x nn => exact Laws.EncodeInRow.seImm x nn
  | sneImm x nn => exact Laws.EncodeInRow.sneImm x nn
  | seReg x y => exact Laws.EncodeInRow.seReg x y
  | ldImm x nn => exact Laws.EncodeInRow.ldImm x nn
  | addImm x nn => exact Laws.EncodeInRow.addImm x nn
  | ldReg x y => exact Laws.EncodeInRow.ldReg x y
  | orReg x y => exact Laws.EncodeInRow.orReg x y
  | andReg x y => exact Laws.EncodeInRow.andReg x y
  | xorReg x y => exact Laws.EncodeInRow.xorReg x y
  | addReg x y => exact Laws.EncodeInRow.addReg x y
  | subReg x y => exact Laws.EncodeInRow.subReg x y
  | shr x y => exact Laws.EncodeInRow.shr x y
  | subn x y => exact Laws.EncodeInRow.subn x y
  | shl x y => exact Laws.EncodeInRow.shl x y
  | sneReg x y => exact Laws.EncodeInRow.sneReg x y
  | ldI nnn => exact Laws.EncodeInRow.ldI nnn
  | jpV0 x nnn => exact Laws.EncodeInRow.jpV0 x nnn
  | rnd x nn => exact Laws.EncodeInRow.rnd x nn
  | drw x y n => exact Laws.EncodeInRow.drw x y n
  | skp x => exact Laws.EncodeInRow.skp x
  | sknp x => exact Laws.EncodeInRow.sknp x
  | ldVxDt x => exact Laws.EncodeInRow.ldVxDt x
  | ldVxKey x => exact Laws.EncodeInRow.ldVxKey x
  | ldDtVx x => exact Laws.EncodeInRow.ldDtVx x
  | ldStVx x => exact Laws.EncodeInRow.ldStVx x
  | addI x => exact Laws.EncodeInRow.addI x
  | ldFont x => exact Laws.EncodeInRow.ldFont x
  | ldBcd x => exact Laws.EncodeInRow.ldBcd x
  | dumpRegs x => exact Laws.EncodeInRow.dumpRegs x
  | loadRegs x => exact Laws.EncodeInRow.loadRegs x

theorem row_matches_of_decodeWord {w : Word} {i : Instr} (h : decodeWord w = .ok i) :
    ∃ row ∈ opcodeTable, row.matches w = true := by
  obtain ⟨encoded, -⟩ := encode_of_decodeWord h
  obtain ⟨in_table, in_row⟩ := encodeInRow i
  rw [encoded] at in_row
  exact ⟨rowOf i, in_table, beq_iff_eq.2 in_row⟩

/-- One instruction of each row, in the table's order. -/
def instrOfEachRow : List Instr :=
  [.cls, .ret, .jp 0, .call 0, .seImm 0 0, .sneImm 0 0, .seReg 0 0, .ldImm 0 0, .addImm 0 0, .ldReg 0 0, .orReg 0 0,
    .andReg 0 0, .xorReg 0 0, .addReg 0 0, .subReg 0 0, .shr 0 0, .subn 0 0, .shl 0 0, .sneReg 0 0, .ldI 0, .jpV0 0 0,
    .rnd 0 0, .drw 0 0 0, .skp 0, .sknp 0, .ldVxDt 0, .ldVxKey 0, .ldDtVx 0, .ldStVx 0, .addI 0, .ldFont 0, .ldBcd 0,
    .dumpRegs 0, .loadRegs 0]

theorem opcodeTable_eq_map : opcodeTable = instrOfEachRow.map rowOf := rfl

/-! A word that matches a row has the row's fixed fields, so it is assembled from these and its operand fields. -/

theorem wordNNN_of_matches {op : Nibble} {w : Word}
    (h : OpcodeRow.matches ⟨wordNNN op 0#12, 0xF000#16⟩ w = true) : wordNNN op (fieldNNN w) = w := by
  have masked : w &&& 0xF000#16 = wordNNN op 0#12 := beq_iff_eq.1 h
  rw [← wordNNN_fields w, wordNNN_mask] at masked
  exact wordNNN_of_fields (by simpa using congrArg fieldOp masked)

theorem wordXNN_of_matches {op : Nibble} {w : Word}
    (h : OpcodeRow.matches ⟨wordXNN op 0#4 0#8, 0xF000#16⟩ w = true) : wordXNN op (fieldX w) (fieldNN w) = w := by
  have masked : w &&& 0xF000#16 = wordXNN op 0#4 0#8 := beq_iff_eq.1 h
  rw [← wordXNN_fields w, wordXNN_mask] at masked
  exact wordXNN_of_fields (by simpa using congrArg fieldOp masked)

theorem wordX_of_matches {op : Nibble} {nn : Byte} {w : Word}
    (h : OpcodeRow.matches ⟨wordXNN op 0#4 nn, 0xF0FF#16⟩ w = true) : wordXNN op (fieldX w) nn = w := by
  have masked : w &&& 0xF0FF#16 = wordXNN op 0#4 nn := beq_iff_eq.1 h
  rw [← wordXNN_fields w, wordX_mask] at masked
  exact wordX_of_fields (by simpa using congrArg fieldOp masked) (by simpa using congrArg fieldNN masked)

theorem wordXYN_of_matches {op : Nibble} {w : Word}
    (h : OpcodeRow.matches ⟨wordXYN op 0#4 0#4 0#4, 0xF000#16⟩ w = true) :
    wordXYN op (fieldX w) (fieldY w) (fieldN w) = w := by
  have masked : w &&& 0xF000#16 = wordXYN op 0#4 0#4 0#4 := beq_iff_eq.1 h
  rw [← wordXYN_fields w, wordXYN_mask] at masked
  exact wordXYN_of_fields (by simpa using congrArg fieldOp masked) rfl

theorem wordXY_of_matches {op n : Nibble} {w : Word}
    (h : OpcodeRow.matches ⟨wordXYN op 0#4 0#4 n, 0xF00F#16⟩ w = true) : wordXYN op (fieldX w) (fieldY w) n = w := by
  have masked : w &&& 0xF00F#16 = wordXYN op 0#4 0#4 n := beq_iff_eq.1 h
  rw [← wordXYN_fields w, wordXY_mask] at masked
  exact wordXYN_of_fields (by simpa using congrArg fieldOp masked) (by simpa using congrArg fieldN masked)

theorem eq_of_matches_full_mask {p w : Word} (h : OpcodeRow.matches ⟨p, 0xFFFF#16⟩ w = true) : p = w := by
  have masked : w &&& 0xFFFF#16 = p := beq_iff_eq.1 h
  have all_ones : w &&& 0xFFFF#16 = w := BitVec.and_allOnes
  exact masked.symm.trans all_ones

/-- A word of a row is the encoding of an instruction of that row, whose operands are the word's own fields. -/
theorem exists_encode_of_matches {i : Instr} {w : Word} (h : (rowOf i).matches w = true) :
    ∃ j, encode j = w ∧ j.wellFormed = true := by
  cases i with
  | cls => exact ⟨.cls, eq_of_matches_full_mask h, rfl⟩
  | ret => exact ⟨.ret, eq_of_matches_full_mask h, rfl⟩
  | jp _ => exact ⟨.jp _, wordNNN_of_matches h, rfl⟩
  | call _ => exact ⟨.call _, wordNNN_of_matches h, rfl⟩
  | seImm _ _ => exact ⟨.seImm _ _, wordXNN_of_matches h, rfl⟩
  | sneImm _ _ => exact ⟨.sneImm _ _, wordXNN_of_matches h, rfl⟩
  | seReg _ _ => exact ⟨.seReg _ _, wordXY_of_matches h, rfl⟩
  | ldImm _ _ => exact ⟨.ldImm _ _, wordXNN_of_matches h, rfl⟩
  | addImm _ _ => exact ⟨.addImm _ _, wordXNN_of_matches h, rfl⟩
  | ldReg _ _ => exact ⟨.ldReg _ _, wordXY_of_matches h, rfl⟩
  | orReg _ _ => exact ⟨.orReg _ _, wordXY_of_matches h, rfl⟩
  | andReg _ _ => exact ⟨.andReg _ _, wordXY_of_matches h, rfl⟩
  | xorReg _ _ => exact ⟨.xorReg _ _, wordXY_of_matches h, rfl⟩
  | addReg _ _ => exact ⟨.addReg _ _, wordXY_of_matches h, rfl⟩
  | subReg _ _ => exact ⟨.subReg _ _, wordXY_of_matches h, rfl⟩
  | shr _ _ => exact ⟨.shr _ _, wordXY_of_matches h, rfl⟩
  | subn _ _ => exact ⟨.subn _ _, wordXY_of_matches h, rfl⟩
  | shl _ _ => exact ⟨.shl _ _, wordXY_of_matches h, rfl⟩
  | sneReg _ _ => exact ⟨.sneReg _ _, wordXY_of_matches h, rfl⟩
  | ldI _ => exact ⟨.ldI _, wordNNN_of_matches h, rfl⟩
  | jpV0 _ _ =>
    exact ⟨.jpV0 (fieldX w) _, wordNNN_of_matches h, beq_iff_eq.2 (fieldX_eq_top_nibble w)⟩
  | rnd _ _ => exact ⟨.rnd _ _, wordXNN_of_matches h, rfl⟩
  | drw _ _ _ => exact ⟨.drw _ _ _, wordXYN_of_matches h, rfl⟩
  | skp _ => exact ⟨.skp _, wordX_of_matches h, rfl⟩
  | sknp _ => exact ⟨.sknp _, wordX_of_matches h, rfl⟩
  | ldVxDt _ => exact ⟨.ldVxDt _, wordX_of_matches h, rfl⟩
  | ldVxKey _ => exact ⟨.ldVxKey _, wordX_of_matches h, rfl⟩
  | ldDtVx _ => exact ⟨.ldDtVx _, wordX_of_matches h, rfl⟩
  | ldStVx _ => exact ⟨.ldStVx _, wordX_of_matches h, rfl⟩
  | addI _ => exact ⟨.addI _, wordX_of_matches h, rfl⟩
  | ldFont _ => exact ⟨.ldFont _, wordX_of_matches h, rfl⟩
  | ldBcd _ => exact ⟨.ldBcd _, wordX_of_matches h, rfl⟩
  | dumpRegs _ => exact ⟨.dumpRegs _, wordX_of_matches h, rfl⟩
  | loadRegs _ => exact ⟨.loadRegs _, wordX_of_matches h, rfl⟩

theorem exists_decodeWord_iff_row_matches (w : Word) :
    (∃ i, decodeWord w = .ok i) ↔ ∃ row ∈ opcodeTable, row.matches w = true := by
  constructor
  · rintro ⟨i, h⟩
    exact row_matches_of_decodeWord h
  · rintro ⟨row, in_table, h⟩
    rw [opcodeTable_eq_map] at in_table
    obtain ⟨i, -, rfl⟩ := List.mem_map.1 in_table
    obtain ⟨j, rfl, wf⟩ := exists_encode_of_matches h
    exact ⟨j, decodeWord_encode wf⟩

/-! ### The obligations -/

/-- Settles O1: the encoder's formats are read back field by field, and the two bytes are put together to the same word. -/
theorem decodeOfEncodeIsTheInstruction : Obligations.DecodeOfEncodeIsTheInstruction := by
  unfold Obligations.DecodeOfEncodeIsTheInstruction
  intro i rest wf
  have word : decodeWord (encode i) = .ok i := decodeWord_encode wf
  refine ⟨word, ?bytes⟩
  rw [← wordOfBytes_split (encode i)] at word
  exact decode_cons_cons_of_decodeWord word rest

/-- Settles O2: in every branch of the decoder the word is assembled from the fields that were compared or passed on. -/
theorem encodeOfDecodeIsTheWord : Obligations.EncodeOfDecodeIsTheWord := by
  unfold Obligations.EncodeOfDecodeIsTheWord
  exact fun _ _ h => encode_of_decodeWord h

/-- Settles O3: what decodes is an encoding and so in its instruction's row; what matches a row is the encoding of an
instruction of that row and so decodes. -/
theorem decoderAcceptsExactlyTheOpcodeTable : Obligations.DecoderAcceptsExactlyTheOpcodeTable := by
  unfold Obligations.DecoderAcceptsExactlyTheOpcodeTable
  exact exists_decodeWord_iff_row_matches

/-- Settles O4: sixteen closed words, each decoded by evaluation. -/
theorem wordsWrittenOutBitByBitDecode : Obligations.WordsWrittenOutBitByBitDecode := by
  unfold Obligations.WordsWrittenOutBitByBitDecode
  decide

end Sys2Proof
end

section
/-! PROOFS. One step: fetch, decode, dispatch, and the halted core (spec/40_step_fetch_decode_dispatch.md rules R57 to
R61, spec/60_exceptions.md rules R102, R105, R111, R112, R116). -/

namespace Sys2Proof.Machine

/-! ### What a block store leaves -/

@[simp] theorem State.storeBlock_pc (s : State) (base : Nat) (bs : List Byte) : (s.storeBlock base bs).pc = s.pc := by
  rw [State.storeBlock_eq]

@[simp] theorem State.storeBlock_i (s : State) (base : Nat) (bs : List Byte) : (s.storeBlock base bs).i = s.i := by
  rw [State.storeBlock_eq]

@[simp] theorem State.storeBlock_qLdst (s : State) (base : Nat) (bs : List Byte) :
    (s.storeBlock base bs).qLdst = s.qLdst := by
  rw [State.storeBlock_eq]

@[simp] theorem State.storeBlock_fault (s : State) (base : Nat) (bs : List Byte) :
    (s.storeBlock base bs).fault = s.fault := by
  rw [State.storeBlock_eq]

theorem State.byteAt_storeBlock_inside {bs : List Byte} {k : Nat} (h : k < bs.length) (s : State) (base : Nat) :
    (s.storeBlock base bs).byteAt (base + k) = bs[k] := by
  rw [State.byteAt_storeBlock, if_pos (Nat.le_add_right base k), Nat.add_sub_cancel_left, List.getElem?_eq_getElem h,
    Option.getD_some]

theorem State.byteAt_storeBlock_outside {bs : List Byte} {base a : Nat} (h : a < base ∨ base + bs.length ≤ a)
    (s : State) : (s.storeBlock base bs).byteAt a = s.byteAt a := by
  rw [State.byteAt_storeBlock]
  split_ifs with hbase
  · have past_the_end : bs.length ≤ a - base := by omega
    rw [List.getElem?_eq_none past_the_end, Option.getD_none]
  · rfl

/-! ### The ways a step can go -/

theorem step_halted {s : State} {f : Fault} (h : s.fault = some f) : step s = .fault f := by
  rw [step, h]
  rfl

theorem step_of_fetch_fault {s : State} (hrun : s.fault = none) (hpc : 0xFFE < s.pc.toNat) :
    step s = .next { s with fault := some .fetchAddrFault } := by
  rw [step, hrun]
  simp only [State.fetch_fault hpc]
  rfl

theorem step_of_decode {s : State} {bytes rest : List Byte} {i : Instr} (hrun : s.fault = none)
    (hfetch : s.fetch = .ok bytes) (hdecode : decode bytes = .ok (i, rest)) : step s = exec i s := by
  rw [step, hrun]
  simp only [hfetch, hdecode]

theorem step_of_runs {s : State} {i : Instr} (h : Runs s i) : step s = exec i s := by
  obtain ⟨hrun, hpc, hword⟩ := h
  exact step_of_decode hrun (State.fetch_ok hpc) (decode_cons_cons_of_decodeWord hword [])

theorem step_of_reject {s : State} {r : Reject} (hrun : s.fault = none) (hpc : s.pc.toNat ≤ 0xFFE)
    (hword : decodeWord (wordAtPc s) = .error r) : step s = .next { s with fault := some .invalidOpcode } := by
  unfold wordAtPc at hword
  rw [step, hrun]
  simp only [State.fetch_ok hpc, decode_pair, hword]
  rfl

theorem stepStatus_of_next {s t : State} (h : step s = .next t) : stepStatus s = t.fault := by
  rw [stepStatus, h]

/-! ### An instruction placed at the fetch (log 12) -/

theorem State.placeAtFetch_pc_le (s : State) (bytes : List Byte) : (s.placeAtFetch bytes).pc.toNat ≤ 0xFFE := by
  rw [State.placeAtFetch_pc]
  split_ifs with hpc
  · decide
  · exact Nat.not_lt.1 hpc

theorem State.placeAtFetch_byteAt_pc_add {bytes : List Byte} {k : Nat} (h : k < bytes.length) (s : State) :
    (s.placeAtFetch bytes).byteAt ((s.placeAtFetch bytes).pc.toNat + k) = bytes[k] := by
  rw [State.placeAtFetch_pc]
  exact State.byteAt_storeBlock_inside h _ _

theorem State.placeAtFetch_fetch (s : State) (hi lo : Byte) : (s.placeAtFetch [hi, lo]).fetch = .ok [hi, lo] := by
  have first := State.placeAtFetch_byteAt_pc_add (bytes := [hi, lo]) (k := 0) (by simp) s
  have second := State.placeAtFetch_byteAt_pc_add (bytes := [hi, lo]) (k := 1) (by simp) s
  rw [State.fetch_ok (s.placeAtFetch_pc_le _), second]
  rw [Nat.add_zero] at first
  rw [first]
  rfl

theorem decode_of_decodeTableWord {w : Nat} {i : Instr} (h : decodeTableWord 16 w = some i) :
    ∃ rest, decode (tableBytes 16 w) = .ok (i, rest) := by
  unfold decodeTableWord at h
  rw [if_neg (by decide)] at h
  cases hdecode : decode (tableBytes 16 w) with
  | error r => simp [hdecode] at h
  | ok p =>
    simp only [hdecode, Option.some.injEq] at h
    exact ⟨p.2, by rw [← h]⟩

/-! ### The obligations -/

/-- Settles O5: the three hypotheses are those of `Runs`. -/
theorem stepRunsTheDecodedInstruction : Obligations.StepRunsTheDecodedInstruction := by
  unfold Obligations.StepRunsTheDecodedInstruction
  exact fun _ _ hrun hpc hword => step_of_runs ⟨hrun, hpc, hword⟩

/-- Settles O6: the fetch reads back the two bytes that were placed, and nothing blocks it. -/
theorem stepRunsTheWordStoredAtTheFetch : Obligations.StepRunsTheWordStoredAtTheFetch := by
  unfold Obligations.StepRunsTheWordStoredAtTheFetch
  intro s w i h
  obtain ⟨rest, hdecode⟩ := decode_of_decodeTableWord h
  exact step_of_decode (s.placeAtFetch_fault _) (s.placeAtFetch_fetch _ _) hdecode

/-- Settles O7: a halted step answers the latched cause; else the status is read off the next state. -/
theorem haltedStepReportsTheLatchedCause : Obligations.HaltedStepReportsTheLatchedCause := by
  unfold Obligations.HaltedStepReportsTheLatchedCause
  refine fun s => ⟨fun f hf => ⟨step_halted hf, ?status⟩, fun t => stepStatus_of_next⟩
  case status => rw [stepStatus, step_halted hf]

/-- Settles O8: the fetch faults and the fault is taken on the state as the step found it. -/
theorem fetchOutsideMemoryRaisesFetchAddrFault : Obligations.FetchOutsideMemoryRaisesFetchAddrFault := by
  unfold Obligations.FetchOutsideMemoryRaisesFetchAddrFault
  exact fun _ => step_of_fetch_fault

/-- Settles O9: a word in no row does not decode, so the dispatcher rejects it. -/
theorem wordOutsideTheTableRaisesInvalidOpcode : Obligations.WordOutsideTheTableRaisesInvalidOpcode := by
  unfold Obligations.WordOutsideTheTableRaisesInvalidOpcode
  intro s hrun hpc hrows
  cases hword : decodeWord (wordAtPc s) with
  | error r => exact step_of_reject hrun hpc hword
  | ok i =>
    obtain ⟨row, in_table, hmatch⟩ := row_matches_of_decodeWord hword
    exact absurd (hmatch.symm.trans (hrows row in_table)) (by decide)

end Sys2Proof.Machine
end

section
/-! PROOFS. Every instruction raises its fault or completes within the access matrix (spec/60_exceptions.md rules R103 to
R111, spec/10_state.md rule R23). -/

namespace Sys2Proof.Machine

/-! ### The meanings: those that raise no fault -/

theorem exec_seReg (x y : Nibble) (s : State) : exec (.seReg x y) s = skipIf (s.getV x == s.getV y) s := rfl

theorem exec_sneReg (x y : Nibble) (s : State) : exec (.sneReg x y) s = skipIf (s.getV x != s.getV y) s := rfl

theorem exec_addReg (x y : Nibble) (s : State) :
    exec (.addReg x y) s = aluFlagged x (s.getV x + s.getV y) (carryFlag (s.getV x) (s.getV y)) s := rfl

theorem exec_subReg (x y : Nibble) (s : State) :
    exec (.subReg x y) s = aluFlagged x (s.getV x - s.getV y) (noBorrowFlag (s.getV x) (s.getV y)) s := rfl

theorem exec_shr (x y : Nibble) (s : State) :
    exec (.shr x y) s = aluFlagged x (shiftSource s x y >>> 1) (shiftRightFlag (shiftSource s x y)) s := rfl

theorem exec_subn (x y : Nibble) (s : State) :
    exec (.subn x y) s = aluFlagged x (s.getV y - s.getV x) (noBorrowFlag (s.getV y) (s.getV x)) s := rfl

theorem exec_shl (x y : Nibble) (s : State) :
    exec (.shl x y) s = aluFlagged x (shiftSource s x y <<< 1) (shiftLeftFlag (shiftSource s x y)) s := rfl

theorem exec_jpV0 (x : Nibble) (nnn : Addr12) (s : State) :
    exec (.jpV0 x nnn) s = .next (s.advance.setPc (addrOf nnn + zext16 (jumpOffset s x))) := rfl

theorem exec_rnd (x : Nibble) (nn : Byte) (s : State) :
    exec (.rnd x nn) s = .next ((s.advance.setV x (Config.rand s.randDraws &&& nn)).nextRand) := rfl

theorem exec_addI (x : Nibble) (s : State) :
    exec (.addI x) s = .next (s.advance.setI (indexSum s.i (s.getV x))) := rfl

theorem exec_ldFont (x : Nibble) (s : State) :
    exec (.ldFont x) s = .next (s.advance.setI (glyphAddr s.params (s.getV x))) := rfl

/-! ### The meanings: those that check a condition first, outside the condition -/

theorem exec_ret_of_ne {s : State} (h : s.sp ≠ 0) :
    exec .ret s = .next ({ s.advance with sp := s.sp - 1 }.setPc (s.stackAt (s.sp - 1))) := by
  rw [exec, execRet, State.pop_ok (s := s.advance) h]
  rfl

theorem exec_call_of_lt {s : State} (h : s.sp < s.params.stackDepth) (nnn : Addr12) :
    exec (.call nnn) s =
      .next ({ s.advance with stack := Sparse.put s.stack s.sp (s.pc + 2#16), sp := s.sp + 1 }.setPc (addrOf nnn)) := by
  rw [exec, execCall, State.push_ok (s := s.advance) h]
  rfl

theorem exec_skp_of_le {s : State} {x : Nibble} (h : (s.getV x).toNat ≤ 15) :
    exec (.skp x) s = skipIf (s.keyDown (s.getV x).toNat == true) s := by
  rw [exec, execSkp, skipOnKey, keyIndex_ok h]

theorem exec_sknp_of_le {s : State} {x : Nibble} (h : (s.getV x).toNat ≤ 15) :
    exec (.sknp x) s = skipIf (s.keyDown (s.getV x).toNat == false) s := by
  rw [exec, execSknp, skipOnKey, keyIndex_ok h]

/-- The display after DXYN and whether a set pixel was cleared (rule R89). -/
def drawing (x y n : Nibble) (s : State) : Drawing :=
  drawRows (spriteCol (s.getV x)) (spriteRow (s.getV y)) (s.readBlock s.i.toNat n.toNat) (s.fb, false)

theorem exec_drw_of_le {n : Nibble} {s : State} (h : n = 0#4 ∨ s.i.toNat + n.toNat - 1 ≤ 0xFFF) (x y : Nibble) :
    exec (.drw x y n) s =
      .next ((s.advance.setFb (drawing x y n s).1).setV vf (collisionFlag (drawing x y n s).2)) :=
  guardRange_ok _ (h.imp_left fun hn => by rw [hn]; rfl)

theorem exec_ldBcd_of_le {s : State} (h : s.i.toNat + 2 ≤ 0xFFF) (x : Nibble) :
    exec (.ldBcd x) s = .next (s.advance.storeBlock s.i.toNat (bcdDigits (s.getV x))) :=
  guardRange_ok _ (.inr h)

theorem exec_dumpRegs_of_le {s : State} {x : Nibble} (h : s.i.toNat + x.toNat ≤ 0xFFF) :
    exec (.dumpRegs x) s =
      .next ((s.advance.storeBlock s.i.toNat (s.v.toList.take (blockLen x))).bumpIndex (blockLen x)) :=
  guardRange_ok _ (.inr h)

theorem exec_loadRegs_of_le {s : State} {x : Nibble} (h : s.i.toNat + x.toNat ≤ 0xFFF) :
    exec (.loadRegs x) s =
      .next ((s.advance.setVs (s.readBlock s.i.toNat (blockLen x))).bumpIndex (blockLen x)) :=
  guardRange_ok _ (.inr h)

/-! ### Raising -/

theorem exec_ret_of_eq_zero {s : State} (h : s.sp = 0) : exec .ret s = takeFault .stackUnderflow s := by
  rw [exec, execRet, State.pop_underflow (s := s.advance) h]

theorem exec_call_of_full {s : State} (h : s.params.stackDepth ≤ s.sp) (nnn : Addr12) :
    exec (.call nnn) s = takeFault .stackOverflow s := by
  rw [exec, execCall, State.push_overflow (s := s.advance) h]

theorem exec_drw_of_gt {n : Nibble} {s : State} (hn : n ≠ 0#4) (h : 0xFFF < s.i.toNat + n.toNat - 1) (x y : Nibble) :
    exec (.drw x y n) s = takeFault .dataAddrFault s :=
  guardRange_fault _ (fun hlen => hn (BitVec.eq_of_toNat_eq hlen)) h

theorem exec_ldBcd_of_gt {s : State} (h : 0xFFF < s.i.toNat + 2) (x : Nibble) :
    exec (.ldBcd x) s = takeFault .dataAddrFault s :=
  guardRange_fault _ (by decide) h

theorem exec_dumpRegs_of_gt {s : State} {x : Nibble} (h : 0xFFF < s.i.toNat + x.toNat) :
    exec (.dumpRegs x) s = takeFault .dataAddrFault s :=
  guardRange_fault _ (Nat.succ_ne_zero _) h

theorem exec_loadRegs_of_gt {s : State} {x : Nibble} (h : 0xFFF < s.i.toNat + x.toNat) :
    exec (.loadRegs x) s = takeFault .dataAddrFault s :=
  guardRange_fault _ (Nat.succ_ne_zero _) h

theorem exec_skp_of_gt {s : State} {x : Nibble} (h : 15 < (s.getV x).toNat) :
    exec (.skp x) s = takeFault .keyIndexFault s := by
  rw [exec, execSkp, skipOnKey, keyIndex_fault h]

theorem exec_sknp_of_gt {s : State} {x : Nibble} (h : 15 < (s.getV x).toNat) :
    exec (.sknp x) s = takeFault .keyIndexFault s := by
  rw [exec, execSknp, skipOnKey, keyIndex_fault h]

theorem eq_and_of_ite_eq_some {c : Prop} [Decidable c] {f g : Fault} (h : (if c then some f else none) = some g) :
    c ∧ f = g := by
  split_ifs at h with hc
  exact ⟨hc, Option.some.inj h⟩

/-- An instruction in its fault condition raises its fault; the instructions that raise none have no such condition. -/
theorem exec_of_handlerFault {i : Instr} {s : State} {f : Fault} (h : handlerFault i s = some f) :
    exec i s = takeFault f s := by
  cases i
  case ret => obtain ⟨hc, rfl⟩ := eq_and_of_ite_eq_some h; exact exec_ret_of_eq_zero hc
  case call nnn => obtain ⟨hc, rfl⟩ := eq_and_of_ite_eq_some h; exact exec_call_of_full hc nnn
  case drw x y n => obtain ⟨⟨hn, hc⟩, rfl⟩ := eq_and_of_ite_eq_some h; exact exec_drw_of_gt hn hc x y
  case ldBcd x => obtain ⟨hc, rfl⟩ := eq_and_of_ite_eq_some h; exact exec_ldBcd_of_gt hc x
  case dumpRegs x => obtain ⟨hc, rfl⟩ := eq_and_of_ite_eq_some h; exact exec_dumpRegs_of_gt hc
  case loadRegs x => obtain ⟨hc, rfl⟩ := eq_and_of_ite_eq_some h; exact exec_loadRegs_of_gt hc
  case skp x => obtain ⟨hc, rfl⟩ := eq_and_of_ite_eq_some h; exact exec_skp_of_gt hc
  case sknp x => obtain ⟨hc, rfl⟩ := eq_and_of_ite_eq_some h; exact exec_sknp_of_gt hc
  all_goals exact absurd h (Option.some_ne_none f).symm

/-! ### Outside the fault condition -/

theorem not_of_ite_eq_none {c : Prop} [Decidable c] {f : Fault} (h : (if c then some f else none) = none) : ¬ c := by
  split_ifs at h with hc
  exact hc

theorem drw_range_of_handlerFault {x y n : Nibble} {s : State} (h : handlerFault (.drw x y n) s = none) :
    n = 0#4 ∨ s.i.toNat + n.toNat - 1 ≤ 0xFFF := by
  rcases not_and_or.1 (not_of_ite_eq_none h) with hn | hlast
  · exact .inl (not_not.1 hn)
  · exact .inr (Nat.not_lt.1 hlast)

/-! ### Frames: the remaining updates -/

theorem Frame.setStack {w : Writes} {s t : State} (h : Frame w s t) (hw : w.stack = true) (k : CallStack) (n : Nat) :
    Frame w s { t with stack := k, sp := n } :=
  { h with
    sp := fun hs => absurd (hw.symm.trans hs) (by decide)
    stack := fun hs => absurd (hw.symm.trans hs) (by decide) }

theorem Frame.nextRand {w : Writes} {s t : State} (h : Frame w s t) (hw : w.rand = true) : Frame w s t.nextRand :=
  { h with rand := fun hr => absurd (hw.symm.trans hr) (by decide) }

theorem Frame.storeBlock {w : Writes} {s t : State} (h : Frame w s t) (hw : w.mem = true) (base : Nat)
    (bs : List Byte) : Frame w s (t.storeBlock base bs) := by
  rw [State.storeBlock_eq]
  exact { h with mem := fun hm => absurd (hw.symm.trans hm) (by decide) }

theorem Frame.bumpIndex {w : Writes} {s t : State} (h : Frame w s t) (hw : w.i = true) (len : Nat) :
    Frame w s (t.bumpIndex len) := by
  rw [State.bumpIndex_eq]
  exact h.setI hw _

/-- A register outside the frame lies past the list that is written. -/
theorem Frame.setVs {w : Writes} {s t : State} (h : Frame w s t) {bs : List Byte}
    (hw : ∀ r : Nibble, r.toNat < bs.length → w.v r = true) : Frame w s (t.setVs bs) := by
  have registers : ∀ r, w.v r = false → (t.setVs bs).getV r = s.getV r := by
    intro r hr
    have past_the_list : bs.length ≤ r.toNat := by
      by_contra hlt
      exact absurd ((hw r (Nat.not_le.1 hlt)).symm.trans hr) (by decide)
    rw [State.getV_setVs, List.getElem?_eq_none past_the_list, Option.getD_none, h.v r hr]
  obtain ⟨v, hv⟩ : ∃ v, t.setVs bs = { t with v := v } := ⟨_, rfl⟩
  rw [hv] at registers ⊢
  exact { h with v := registers }

/-- The range read by FX65 has as many bytes as V0..VX. -/
theorem regsUpTo_of_lt_blockLen {s : State} {base : Nat} {x r : Nibble}
    (h : r.toNat < (s.readBlock base (blockLen x)).length) : regsUpTo x r = true := by
  rw [State.length_readBlock] at h
  exact decide_eq_true (Nat.lt_succ_iff.1 h)

/-! ### The shared operations -/

theorem aluPlain_frame (x : Nibble) (r : Byte) (s : State) :
    ∃ t, aluPlain x r s = .next t ∧ Frame { v := regs [x] } s t := by
  obtain ⟨t, ht, -, -, hframe⟩ := aluPlain_getV_pc_frame x r s
  exact ⟨t, ht, hframe⟩

theorem regs_pair_left (x y : Nibble) : regs [x, y] x = true := by simp [regs]

theorem regs_pair_right (x y : Nibble) : regs [x, y] y = true := by simp [regs]

/-- The flag is written last, so with X = F it is what stays (decision D11). -/
theorem aluFlagged_getV_pc_frame (x : Nibble) (r flag : Byte) (s : State) : ∃ t, aluFlagged x r flag s = .next t ∧
    (x ≠ vf → t.getV x = r) ∧ t.getV vf = flag ∧ t.pc = s.pc + 2#16 ∧ Frame { v := regs [x, vf] } s t := by
  refine ⟨_, rfl, fun hx => ?result, State.getV_setV_same _ vf flag, rfl, ?frame⟩
  case result => rw [State.getV_setV_of_ne hx, State.getV_setV_same]
  case frame => exact ((Frame.refl _ s).advance.setV (regs_pair_left x vf) r).setV (regs_pair_right x vf) flag

theorem aluFlagged_frame (x : Nibble) (r flag : Byte) (s : State) :
    ∃ t, aluFlagged x r flag s = .next t ∧ Frame { v := regs [x, vf] } s t := by
  obtain ⟨t, ht, -, -, -, hframe⟩ := aluFlagged_getV_pc_frame x r flag s
  exact ⟨t, ht, hframe⟩

theorem skipIf_frame (c : Bool) (s : State) : ∃ t, skipIf c s = .next t ∧ Frame {} s t := by
  obtain ⟨t, ht, -, hframe⟩ := skipIf_pc_frame c s
  exact ⟨t, ht, hframe⟩

theorem exec_ldVxKey_frame (x : Nibble) (s : State) :
    ∃ t, exec (.ldVxKey x) s = .next t ∧ Frame { v := regs [x] } s t := by
  cases hscan : lowestKey s with
  | some k => rw [exec_ldVxKey_of_some hscan]; exact aluPlain_frame x _ s
  | none => exact ⟨s, exec_ldVxKey_of_none hscan x, Frame.refl _ s⟩

theorem exec_frame {i : Instr} {s : State} (h : handlerFault i s = none) :
    ∃ t, exec i s = .next t ∧ Frame (writesOf i) s t := by
  have unchanged {w : Writes} : Frame w s s.advance := (Frame.refl w s).advance
  cases i with
  | cls => exact ⟨_, exec_cls s, unchanged.setFb rfl _⟩
  | ret => exact ⟨_, exec_ret_of_ne (not_of_ite_eq_none h), (unchanged.setStack rfl _ _).setPc _⟩
  | jp nnn => exact ⟨_, exec_jp nnn s, unchanged.setPc _⟩
  | call nnn =>
    exact ⟨_, exec_call_of_lt (Nat.not_le.1 (not_of_ite_eq_none h)) nnn, (unchanged.setStack rfl _ _).setPc _⟩
  | seImm x nn => exact skipIf_frame _ s
  | sneImm x nn => exact skipIf_frame _ s
  | seReg x y => exact skipIf_frame _ s
  | ldImm x nn => exact aluPlain_frame x _ s
  | addImm x nn => exact aluPlain_frame x _ s
  | ldReg x y => exact aluPlain_frame x _ s
  | orReg x y => exact aluPlain_frame x _ s
  | andReg x y => exact aluPlain_frame x _ s
  | xorReg x y => exact aluPlain_frame x _ s
  | addReg x y => exact aluFlagged_frame x _ _ s
  | subReg x y => exact aluFlagged_frame x _ _ s
  | shr x y => exact aluFlagged_frame x _ _ s
  | subn x y => exact aluFlagged_frame x _ _ s
  | shl x y => exact aluFlagged_frame x _ _ s
  | sneReg x y => exact skipIf_frame _ s
  | ldI nnn => exact ⟨_, exec_ldI nnn s, unchanged.setI rfl _⟩
  | jpV0 x nnn => exact ⟨_, exec_jpV0 x nnn s, unchanged.setPc _⟩
  | rnd x nn => exact ⟨_, exec_rnd x nn s, (unchanged.setV (regs_singleton_self x) _).nextRand rfl⟩
  | drw x y n =>
    exact ⟨_, exec_drw_of_le (drw_range_of_handlerFault h) x y,
      (unchanged.setFb rfl _).setV (regs_singleton_self vf) _⟩
  | skp x => rw [exec_skp_of_le (Nat.not_lt.1 (not_of_ite_eq_none h))]; exact skipIf_frame _ s
  | sknp x => rw [exec_sknp_of_le (Nat.not_lt.1 (not_of_ite_eq_none h))]; exact skipIf_frame _ s
  | ldVxDt x => exact aluPlain_frame x _ s
  | ldVxKey x => exact exec_ldVxKey_frame x s
  | ldDtVx x => exact ⟨_, exec_ldDtVx x s, unchanged.setDt rfl _⟩
  | ldStVx x => exact ⟨_, exec_ldStVx x s, unchanged.setSt rfl _⟩
  | addI x => exact ⟨_, exec_addI x s, unchanged.setI rfl _⟩
  | ldFont x => exact ⟨_, exec_ldFont x s, unchanged.setI rfl _⟩
  | ldBcd x => exact ⟨_, exec_ldBcd_of_le (Nat.not_lt.1 (not_of_ite_eq_none h)) x, unchanged.storeBlock rfl _ _⟩
  | dumpRegs x =>
    exact ⟨_, exec_dumpRegs_of_le (Nat.not_lt.1 (not_of_ite_eq_none h)),
      (unchanged.storeBlock rfl _ _).bumpIndex rfl _⟩
  | loadRegs x =>
    exact ⟨_, exec_loadRegs_of_le (Nat.not_lt.1 (not_of_ite_eq_none h)),
      (unchanged.setVs fun _ => regsUpTo_of_lt_blockLen).bumpIndex rfl _⟩

/-- What a meaning can answer: its fault on the state as it was, or a state within its frame. -/
theorem exec_cases (i : Instr) (s : State) :
    (∃ f, handlerFault i s = some f ∧ exec i s = .next { s with fault := some f }) ∨
      ∃ t, exec i s = .next t ∧ Frame (writesOf i) s t := by
  cases h : handlerFault i s with
  | some f => exact .inl ⟨f, rfl, exec_of_handlerFault h⟩
  | none => exact .inr (exec_frame h)

/-! ### The obligations -/

/-- Settles O12: with the stack empty the pop fails, with the stack full the push does. -/
theorem stackFaultsOnEmptyAndFull : Obligations.StackFaultsOnEmptyAndFull := by
  unfold Obligations.StackFaultsOnEmptyAndFull
  exact ⟨fun _ => exec_ret_of_eq_zero, fun nnn _ h => exec_call_of_full h nnn⟩

/-- Settles O13: the range check of each of the four fails before anything is done. -/
theorem rangesPastMemoryRaiseDataAddrFault : Obligations.RangesPastMemoryRaiseDataAddrFault := by
  unfold Obligations.RangesPastMemoryRaiseDataAddrFault
  exact fun x y n s => ⟨fun hn h => exec_drw_of_gt hn h x y, fun h => exec_ldBcd_of_gt h x, exec_dumpRegs_of_gt,
    exec_loadRegs_of_gt⟩

/-- Settles O14: the key number is refused before the key is looked at. -/
theorem keyNumbersAboveFifteenRaiseKeyIndexFault : Obligations.KeyNumbersAboveFifteenRaiseKeyIndexFault := by
  unfold Obligations.KeyNumbersAboveFifteenRaiseKeyIndexFault
  exact fun x s h => ⟨exec_skp_of_gt h, exec_sknp_of_gt h⟩

/-- Settles O15: instruction by instruction, the completed state is a chain of updates that the frame allows. -/
theorem everyInstructionCompletesWithinTheAccessMatrix :
    Obligations.EveryInstructionCompletesWithinTheAccessMatrix := by
  unfold Obligations.EveryInstructionCompletesWithinTheAccessMatrix
  exact fun _ _ => exec_frame

end Sys2Proof.Machine
end

section
/-! PROOFS. What every step keeps, whatever it runs (spec/10_state.md rules R14 to R19, spec/60_exceptions.md rules R110,
R111). -/

namespace Sys2Proof.Machine

/-! ### A step faults or runs an instruction within its frame -/

/-- Every step of a running core raises a fault on the state as it was, or runs an instruction within its frame. -/
theorem step_fault_or_frame {s : State} (hrun : s.fault = none) :
    (∃ f, step s = .next { s with fault := some f }) ∨
      ∃ i t, Runs s i ∧ step s = .next t ∧ Frame (writesOf i) s t := by
  rcases Nat.lt_or_ge 0xFFE s.pc.toNat with hpc | hpc
  · exact .inl ⟨_, step_of_fetch_fault hrun hpc⟩
  cases hword : decodeWord (wordAtPc s) with
  | error r => exact .inl ⟨_, step_of_reject hrun hpc hword⟩
  | ok i =>
    have runs : Runs s i := ⟨hrun, hpc, hword⟩
    have step_eq : step s = exec i s := step_of_runs runs
    rcases exec_cases i s with ⟨f, -, hexec⟩ | ⟨t, hexec, hframe⟩
    · exact .inl ⟨f, step_eq.trans hexec⟩
    · exact .inr ⟨i, t, runs, step_eq.trans hexec, hframe⟩

/-- The same, for the state the step has answered. -/
theorem fault_or_frame_of_step {s t : State} (h : step s = .next t) :
    (∃ f, t = { s with fault := some f }) ∨ ∃ i, Runs s i ∧ Frame (writesOf i) s t := by
  obtain ⟨hrun, -⟩ := step_cases h
  rcases step_fault_or_frame hrun with ⟨f, hstep⟩ | ⟨i, u, runs, hstep, hframe⟩
  · exact .inl ⟨f, Host.Outcome.next.inj (h.symm.trans hstep)⟩
  · obtain rfl : t = u := Host.Outcome.next.inj (h.symm.trans hstep)
    exact .inr ⟨i, runs, hframe⟩

/-! ### Which instructions may write a part of the state -/

theorem eq_cls_or_drw_of_writesOf_fb {i : Instr} (h : (writesOf i).fb = true) : i = .cls ∨ ∃ x y n, i = .drw x y n := by
  cases i
  case cls => exact .inl rfl
  case drw x y n => exact .inr ⟨x, y, n, rfl⟩
  all_goals exact absurd h (by simp [writesOf])

theorem eq_ldBcd_or_dumpRegs_of_writesOf_mem {i : Instr} (h : (writesOf i).mem = true) :
    ∃ x, i = .ldBcd x ∨ i = .dumpRegs x := by
  cases i
  case ldBcd x => exact ⟨x, .inl rfl⟩
  case dumpRegs x => exact ⟨x, .inr rfl⟩
  all_goals exact absurd h (by simp [writesOf])

theorem eq_ret_or_call_of_writesOf_stack {i : Instr} (h : (writesOf i).stack = true) :
    i = .ret ∨ ∃ nnn, i = .call nnn := by
  cases i
  case ret => exact .inl rfl
  case call nnn => exact .inr ⟨nnn, rfl⟩
  all_goals exact absurd h (by simp [writesOf])

theorem eq_ldDtVx_of_writesOf_dt {i : Instr} (h : (writesOf i).dt = true) : ∃ x, i = .ldDtVx x := by
  cases i
  case ldDtVx x => exact ⟨x, rfl⟩
  all_goals exact absurd h (by simp [writesOf])

theorem eq_ldStVx_of_writesOf_st {i : Instr} (h : (writesOf i).st = true) : ∃ x, i = .ldStVx x := by
  cases i
  case ldStVx x => exact ⟨x, rfl⟩
  all_goals exact absurd h (by simp [writesOf])

/-- What a part of the state that a step has changed says about the instruction it ran: that its frame names the part. -/
theorem writes_of_step {α : Type} {part : State → α} {w : Writes → Bool} {s t : State}
    (hfault : ∀ f, part { s with fault := some f } = part s)
    (hframe : ∀ {i : Instr}, Frame (writesOf i) s t → w (writesOf i) = false → part t = part s)
    (h : step s = .next t) (hchanged : part t ≠ part s) : ∃ i, Runs s i ∧ w (writesOf i) = true := by
  rcases fault_or_frame_of_step h with ⟨f, rfl⟩ | ⟨i, runs, frame⟩
  · exact absurd (hfault f) hchanged
  · exact ⟨i, runs, Bool.of_not_eq_false fun hw => hchanged (hframe frame hw)⟩

/-! ### The obligations -/

/-- Settles O10: a step of a running core raises a fault or completes, and both are next states. -/
theorem runningStepAlwaysAnswersANextState : Obligations.RunningStepAlwaysAnswersANextState := by
  unfold Obligations.RunningStepAlwaysAnswersANextState
  intro s hrun
  rcases step_fault_or_frame hrun with ⟨f, hstep⟩ | ⟨i, t, -, hstep, -⟩
  · exact ⟨_, hstep⟩
  · exact ⟨t, hstep⟩

/-- Settles O11: a step that has not raised its fault has kept FAULT, which was clear. -/
theorem faultingStepChangesOnlyFault : Obligations.FaultingStepChangesOnlyFault := by
  unfold Obligations.FaultingStepChangesOnlyFault
  intro s t f hrun hstep hf
  rcases fault_or_frame_of_step hstep with ⟨g, rfl⟩ | ⟨i, -, frame⟩
  · rw [Option.some.inj hf]
  · rw [frame.fault, hrun] at hf
    cases hf

/-- Settles O19: raising a fault leaves all of them, and so does every frame. -/
theorem stepKeepsKeysQuirksAndParameters : Obligations.StepKeepsKeysQuirksAndParameters := by
  unfold Obligations.StepKeepsKeysQuirksAndParameters
  intro s t hstep
  rcases fault_or_frame_of_step hstep with ⟨f, rfl⟩ | ⟨i, -, frame⟩
  · exact ⟨rfl, rfl, rfl, rfl, rfl⟩
  · exact ⟨frame.keys, frame.qShift, frame.qJump, frame.qLdst, frame.params⟩

/-- Settles O20: only the frames of 00E0 and DXYN name the display. -/
theorem displayChangesOnlyByClearAndDraw : Obligations.DisplayChangesOnlyByClearAndDraw := by
  unfold Obligations.DisplayChangesOnlyByClearAndDraw
  intro s t hstep hchanged
  obtain ⟨i, runs, hw⟩ := writes_of_step (part := State.fb) (fun _ => rfl) (fun frame => frame.fb) hstep hchanged
  rcases eq_cls_or_drw_of_writesOf_fb hw with rfl | ⟨x, y, n, rfl⟩
  · exact .inl runs
  · exact .inr ⟨x, y, n, runs⟩

/-- Settles O21: only the frames of FX33 and FX55 name memory. -/
theorem memoryChangesOnlyByBcdAndRegisterDump : Obligations.MemoryChangesOnlyByBcdAndRegisterDump := by
  unfold Obligations.MemoryChangesOnlyByBcdAndRegisterDump
  intro s t a hstep hchanged
  obtain ⟨i, runs, hw⟩ := writes_of_step (part := (State.byteAt · a)) (fun _ => rfl)
    (fun frame hm => frame.mem hm a) hstep hchanged
  obtain ⟨x, rfl | rfl⟩ := eq_ldBcd_or_dumpRegs_of_writesOf_mem hw
  · exact ⟨x, .inl runs⟩
  · exact ⟨x, .inr runs⟩

theorem stack_written_of_step {s t : State} (hstep : step s = .next t)
    (hchanged : t.sp ≠ s.sp ∨ ∃ j, t.stackAt j ≠ s.stackAt j) : ∃ i, Runs s i ∧ (writesOf i).stack = true := by
  rcases hchanged with hsp | ⟨j, hentry⟩
  · exact writes_of_step (part := State.sp) (fun _ => rfl) (fun frame => frame.sp) hstep hsp
  · exact writes_of_step (part := (State.stackAt · j)) (fun _ => rfl) (fun frame hs => frame.stack hs j) hstep hentry

/-- Settles O22: only the frames of 00EE and 2NNN name SP and the stack entries. -/
theorem stackChangesOnlyByCallAndReturn : Obligations.StackChangesOnlyByCallAndReturn := by
  unfold Obligations.StackChangesOnlyByCallAndReturn
  intro s t hstep hchanged
  obtain ⟨i, runs, hw⟩ := stack_written_of_step hstep hchanged
  rcases eq_ret_or_call_of_writesOf_stack hw with rfl | ⟨nnn, rfl⟩
  · exact .inl runs
  · exact .inr ⟨nnn, runs⟩

/-- Settles O23: only the frame of FX15 names DT, and only that of FX18 names ST. -/
theorem timersChangeOnlyByTimerWrites : Obligations.TimersChangeOnlyByTimerWrites := by
  unfold Obligations.TimersChangeOnlyByTimerWrites
  refine fun s t hstep => ⟨fun hchanged => ?dt, fun hchanged => ?st⟩
  case dt =>
    obtain ⟨i, runs, hw⟩ := writes_of_step (part := State.dt) (fun _ => rfl) (fun frame => frame.dt) hstep hchanged
    obtain ⟨x, rfl⟩ := eq_ldDtVx_of_writesOf_dt hw
    exact ⟨x, runs⟩
  case st =>
    obtain ⟨i, runs, hw⟩ := writes_of_step (part := State.st) (fun _ => rfl) (fun frame => frame.st) hstep hchanged
    obtain ⟨x, rfl⟩ := eq_ldStVx_of_writesOf_st hw
    exact ⟨x, runs⟩

end Sys2Proof.Machine
end

section
/-! PROOFS. No step reads ST (spec/10_state.md rule R15, spec/60_exceptions.md rule R121). -/

namespace Sys2Proof.Machine

/-! ### Setting ST first is setting it last -/

/-- An answer with ST set in its next state. -/
def answerSetSt (b : Byte) : Result → Result
  | .next t => .next (t.setSt b)
  | .fault f => .fault f
  | .refused r => .refused r

theorem skipIf_setSt (c : Bool) (s : State) (b : Byte) : skipIf c (s.setSt b) = answerSetSt b (skipIf c s) := by
  cases c <;> rfl

theorem guardRange_setSt (len : Nat) (s body : State) (b : Byte) :
    guardRange len (s.setSt b) (body.setSt b) = answerSetSt b (guardRange len s body) := by
  unfold guardRange
  rw [State.setSt_i]
  split_ifs <;> rfl

theorem State.storeBlock_setSt (s : State) (b : Byte) (base : Nat) (bs : List Byte) :
    (s.setSt b).storeBlock base bs = (s.storeBlock base bs).setSt b := by
  induction bs generalizing s base with
  | nil => rfl
  | cons c bs ih => exact ih (s.setByte base c) (base + 1)

theorem State.bumpIndex_setSt (s : State) (b : Byte) (len : Nat) :
    (s.setSt b).bumpIndex len = (s.bumpIndex len).setSt b := by
  rw [State.bumpIndex_eq, State.bumpIndex_eq]
  rfl

theorem exec_ret_setSt (s : State) (b : Byte) : exec .ret (s.setSt b) = answerSetSt b (exec .ret s) := by
  by_cases h : s.sp = 0
  · rw [exec_ret_of_eq_zero h, exec_ret_of_eq_zero (s := s.setSt b) h]
    rfl
  · rw [exec_ret_of_ne h, exec_ret_of_ne (s := s.setSt b) h]
    rfl

theorem exec_call_setSt (nnn : Addr12) (s : State) (b : Byte) :
    exec (.call nnn) (s.setSt b) = answerSetSt b (exec (.call nnn) s) := by
  rcases Nat.lt_or_ge s.sp s.params.stackDepth with h | h
  · rw [exec_call_of_lt h, exec_call_of_lt (s := s.setSt b) h]
    rfl
  · rw [exec_call_of_full h, exec_call_of_full (s := s.setSt b) h]
    rfl

theorem skipOnKey_setSt (x : Nibble) (down : Bool) (s : State) (b : Byte) :
    skipOnKey x down (s.setSt b) = answerSetSt b (skipOnKey x down s) := by
  rcases Nat.lt_or_ge 15 (s.getV x).toNat with h | h
  · rw [skipOnKey, skipOnKey, keyIndex_fault h, keyIndex_fault (s := s.setSt b) h]
    rfl
  · rw [skipOnKey, skipOnKey, keyIndex_ok h, keyIndex_ok (s := s.setSt b) h]
    exact skipIf_setSt _ s b

theorem exec_ldVxKey_setSt (x : Nibble) (s : State) (b : Byte) :
    exec (.ldVxKey x) (s.setSt b) = answerSetSt b (exec (.ldVxKey x) s) := by
  cases h : lowestKey s with
  | some k =>
    rw [exec_ldVxKey_of_some h, exec_ldVxKey_of_some (s := s.setSt b) h]
    rfl
  | none =>
    rw [exec_ldVxKey_of_none h, exec_ldVxKey_of_none (s := s.setSt b) h]
    rfl

/-- Every meaning but that of FX18 hands ST through. -/
theorem exec_setSt {i : Instr} (h : ∀ x, i ≠ .ldStVx x) (s : State) (b : Byte) :
    exec i (s.setSt b) = answerSetSt b (exec i s) := by
  cases i with
  | ldStVx x => exact absurd rfl (h x)
  | ret => exact exec_ret_setSt s b
  | call nnn => exact exec_call_setSt nnn s b
  | seImm x nn => exact skipIf_setSt _ s b
  | sneImm x nn => exact skipIf_setSt _ s b
  | seReg x y => exact skipIf_setSt _ s b
  | sneReg x y => exact skipIf_setSt _ s b
  | skp x => exact skipOnKey_setSt x true s b
  | sknp x => exact skipOnKey_setSt x false s b
  | ldVxKey x => exact exec_ldVxKey_setSt x s b
  | drw x y n =>
    exact guardRange_setSt n.toNat s
      ((s.advance.setFb (drawing x y n s).1).setV vf (collisionFlag (drawing x y n s).2)) b
  | ldBcd x =>
    refine Eq.trans ?_ (guardRange_setSt 3 s _ b)
    exact congrArg (guardRange 3 _) (State.storeBlock_setSt s.advance b _ _)
  | dumpRegs x =>
    refine Eq.trans ?_ (guardRange_setSt (blockLen x) s _ b)
    refine congrArg (guardRange (blockLen x) _) (Eq.trans ?_ (State.bumpIndex_setSt _ b _))
    exact congrArg (State.bumpIndex · (blockLen x)) (State.storeBlock_setSt s.advance b _ _)
  | loadRegs x =>
    refine Eq.trans ?_ (guardRange_setSt (blockLen x) s _ b)
    exact congrArg (guardRange (blockLen x) _) (State.bumpIndex_setSt (s.advance.setVs _) b _)
  | cls => rfl
  | jp nnn => rfl
  | ldImm x nn => rfl
  | addImm x nn => rfl
  | ldReg x y => rfl
  | orReg x y => rfl
  | andReg x y => rfl
  | xorReg x y => rfl
  | addReg x y => rfl
  | subReg x y => rfl
  | shr x y => rfl
  | subn x y => rfl
  | shl x y => rfl
  | ldI nnn => rfl
  | jpV0 x nnn => rfl
  | rnd x nn => rfl
  | ldVxDt x => rfl
  | ldDtVx x => rfl
  | addI x => rfl
  | ldFont x => rfl

/-- FX18 overwrites ST, whatever it held. -/
theorem exec_ldStVx_setSt (x : Nibble) (s : State) (b : Byte) :
    exec (.ldStVx x) (s.setSt b) = exec (.ldStVx x) s := rfl

theorem exec_setSt_answers {i : Instr} {s t : State} (h : exec i s = .next t) (b : Byte) :
    ∃ u, exec i (s.setSt b) = .next u ∧ u.setSt t.st = t := by
  by_cases hi : ∃ x, i = .ldStVx x
  · obtain ⟨x, rfl⟩ := hi
    exact ⟨t, (exec_ldStVx_setSt x s b).trans h, rfl⟩
  · refine ⟨t.setSt b, ?answer, rfl⟩
    rw [exec_setSt (fun x hx => hi ⟨x, hx⟩), h]
    rfl

/-! ### The obligation -/

/-- Settles O24: ST blocks neither fetch nor decoding, and every meaning hands it through or overwrites it. -/
theorem noStepReadsTheSoundTimer : Obligations.NoStepReadsTheSoundTimer := by
  unfold Obligations.NoStepReadsTheSoundTimer
  intro s t b hstep
  obtain ⟨hrun, ⟨hpc, rfl⟩ | ⟨hpc, ⟨r, hword⟩, rfl⟩ | ⟨i, runs, hexec⟩⟩ := step_cases hstep
  · exact ⟨_, step_of_fetch_fault (s := s.setSt b) hrun hpc, rfl⟩
  · exact ⟨_, step_of_reject (s := s.setSt b) hrun hpc hword, rfl⟩
  · obtain ⟨u, hu, hst⟩ := exec_setSt_answers hexec b
    have runs_too : Runs (s.setSt b) i := runs
    exact ⟨u, (step_of_runs runs_too).trans hu, hst⟩

end Sys2Proof.Machine
end

section
/-! PROOFS. The invariant, at reset and over every step and host move (spec/10_state.md rules R12 to R14, spec/20_memory.md
rule R31, spec/70_reset_and_hazards.md rules R127, R129). -/

namespace Sys2Proof.Machine

/-! ### What each update asks for, to keep the invariant -/

theorem State.Inv.setPc {s : State} (h : s.Inv) {a : Word} (ha : a.toNat ≤ 0x10FE) : (s.setPc a).Inv := by
  obtain ⟨hparams, hmem, hstack, hsp, hlive, hi, -⟩ := h
  exact ⟨hparams, hmem, hstack, hsp, hlive, hi, ha⟩

theorem State.Inv.setI {s : State} (h : s.Inv) {a : Word} (ha : a.toNat ≤ 0x1000) : (s.setI a).Inv := by
  obtain ⟨hparams, hmem, hstack, hsp, hlive, -, hpc⟩ := h
  exact ⟨hparams, hmem, hstack, hsp, hlive, ha, hpc⟩

/-! The invariant does not speak of the V registers, the display, the timers, the draws, FAULT and the keys. -/

theorem State.Inv.setV {s : State} (h : s.Inv) (x : Nibble) (b : Byte) : (s.setV x b).Inv := h

theorem State.Inv.setVs {s : State} (h : s.Inv) (bs : List Byte) : (s.setVs bs).Inv := h

theorem State.Inv.setFb {s : State} (h : s.Inv) (fb : Display) : (s.setFb fb).Inv := h

theorem State.Inv.setDt {s : State} (h : s.Inv) (b : Byte) : (s.setDt b).Inv := h

theorem State.Inv.setSt {s : State} (h : s.Inv) (b : Byte) : (s.setSt b).Inv := h

theorem State.Inv.nextRand {s : State} (h : s.Inv) : s.nextRand.Inv := h

theorem State.Inv.setFault {s : State} (h : s.Inv) (f : Option Fault) : State.Inv { s with fault := f } := h

theorem State.Inv.setKeys {s : State} (h : s.Inv) (keys : BitVec 16) : State.Inv { s with keys := keys } := h

/-! Memory, I moved past a block, and PC moved past a fetched instruction. -/

theorem State.Inv.storeBlock {s : State} (h : s.Inv) {base : Nat} {bs : List Byte} (hfit : base + bs.length ≤ 0x1000) :
    (s.storeBlock base bs).Inv := by
  obtain ⟨hparams, hmem, hstack, hsp, hlive, hi, hpc⟩ := h
  have stored := State.wf_storeBlock hmem hfit
  rw [State.storeBlock_eq] at stored ⊢
  exact ⟨hparams, stored, hstack, hsp, hlive, hi, hpc⟩

theorem State.Inv.bumpIndex {s : State} (h : s.Inv) {len : Nat} (hfit : s.i.toNat + len ≤ 0x1000) :
    (s.bumpIndex len).Inv := by
  have hi : s.i.toNat ≤ 0x1000 := by omega
  rw [State.bumpIndex_eq]
  refine h.setI ?_
  split_ifs
  · rw [BitVec.toNat_add, BitVec.toNat_ofNat]
    omega
  · exact hi

theorem pc_add_two_le {s : State} (hpc : s.pc.toNat ≤ 0xFFE) : (s.pc + 2#16).toNat ≤ 0x1000 := by
  rw [BitVec.toNat_add, BitVec.toNat_ofNat]
  omega

theorem State.Inv.advance {s : State} (h : s.Inv) (hpc : s.pc.toNat ≤ 0xFFE) : s.advance.Inv :=
  h.setPc ((pc_add_two_le hpc).trans (by decide))

/-! ### The call stack under the invariant -/

theorem State.Inv.pop {s : State} (h : s.Inv) : State.Inv { s with sp := s.sp - 1 } := by
  obtain ⟨hparams, hmem, hstack, hsp, hlive, hi, hpc⟩ := h
  exact ⟨hparams, hmem, hstack, (Nat.sub_le _ 1).trans hsp,
    fun j hj => hlive j (hj.trans_le (Nat.sub_le _ 1)), hi, hpc⟩

/-- The entries in use after a push are those before it and the one written. -/
theorem State.LiveEntries.push {s : State} (h : s.LiveEntries) {a : Word} (ha : a.toNat ≤ 0x1000) :
    State.LiveEntries { s with stack := Sparse.put s.stack s.sp a, sp := s.sp + 1 } := by
  intro j hj
  show (Sparse.get? (Sparse.put s.stack s.sp a) j).any _ = true
  rw [Sparse.get?_put]
  split_ifs with hnew
  · exact decide_eq_true ha
  · exact h j (Nat.lt_of_le_of_ne (Nat.lt_succ_iff.1 hj) hnew)

theorem State.Inv.push {s : State} (h : s.Inv) (hroom : s.sp < s.params.stackDepth) {a : Word}
    (ha : a.toNat ≤ 0x1000) : State.Inv { s with stack := Sparse.put s.stack s.sp a, sp := s.sp + 1 } := by
  obtain ⟨hparams, hmem, hstack, -, hlive, hi, hpc⟩ := h
  exact ⟨hparams, hmem, CallStack.wf_put hstack hroom a, hroom, hlive.push ha, hi, hpc⟩

theorem State.LiveEntries.stackAt_le {s : State} (h : s.LiveEntries) {j : Nat} (hj : j < s.sp) :
    (s.stackAt j).toNat ≤ 0x1000 := by
  have written := h j hj
  unfold State.stackAt
  cases hget : Sparse.get? s.stack j with
  | none => simp [hget] at written
  | some a => simpa [hget] using written

theorem State.Inv.liveEntries {s : State} (h : s.Inv) : s.LiveEntries := by
  obtain ⟨-, -, -, -, hlive, -, -⟩ := h
  exact hlive

theorem State.Inv.params_wf {s : State} (h : s.Inv) : s.params.wf := by
  obtain ⟨hparams, -⟩ := h
  exact hparams

/-! ### How far PC and I can be moved -/

theorem skip_pc_le {s : State} (hpc : s.pc.toNat ≤ 0xFFE) (c : Bool) :
    (if c then s.pc + 2#16 + 2#16 else s.pc + 2#16).toNat ≤ 0x10FE := by
  have once := pc_add_two_le hpc
  split_ifs
  · rw [BitVec.toNat_add, BitVec.toNat_ofNat]
    omega
  · omega

theorem addrOf_le (nnn : Addr12) : (addrOf nnn).toNat ≤ 0xFFF := by
  rw [addrOf_toNat]
  exact Nat.lt_succ_iff.1 nnn.isLt

/-- The sum of BNNN does not wrap. -/
theorem addrOf_add_zext16_toNat (nnn : Addr12) (b : Byte) :
    (addrOf nnn + zext16 b).toNat = nnn.toNat + b.toNat := by
  have hnnn : nnn.toNat < 4096 := nnn.isLt
  have hb : b.toNat < 256 := b.isLt
  rw [BitVec.toNat_add, addrOf_toNat, zext16_toNat, Nat.mod_eq_of_lt (by omega)]

theorem jump_pc_le (nnn : Addr12) (b : Byte) : (addrOf nnn + zext16 b).toNat ≤ 0x10FE := by
  have hnnn : nnn.toNat < 4096 := nnn.isLt
  have hb : b.toNat < 256 := b.isLt
  rw [addrOf_add_zext16_toNat]
  omega

theorem indexSum_toNat (i : Word) (b : Byte) : (indexSum i b).toNat = (i.toNat + b.toNat) % 4096 := by
  have low_bits : (0x0FFF#16).toNat = 2 ^ 12 - 1 := rfl
  rw [indexSum, BitVec.toNat_and, low_bits, Nat.and_two_pow_sub_one_eq_mod, BitVec.toNat_add, zext16_toNat]
  exact Nat.mod_mod_of_dvd _ (by decide)

theorem indexSum_le (i : Word) (b : Byte) : (indexSum i b).toNat ≤ 0x1000 := by
  rw [indexSum_toNat]
  omega

/-- Under legal parameters the glyph addresses do not wrap. -/
theorem glyphAddr_toNat {p : Params} (h : p.wf) (b : Byte) :
    (glyphAddr p b).toNat = p.fontBase + 5 * (b.toNat % 16) := by
  obtain ⟨-, hfont⟩ := h
  rw [glyphAddr, BitVec.toNat_ofNat, Nat.mod_eq_of_lt (by omega)]

theorem glyphAddr_le {p : Params} (h : p.wf) (b : Byte) : (glyphAddr p b).toNat ≤ 0x1000 := by
  have glyph := glyphAddr_toNat h b
  obtain ⟨-, hfont⟩ := h
  omega

/-! ### Instruction by instruction -/

section
variable {s : State}

theorem aluPlain_inv (h : s.Inv) (hpc : s.pc.toNat ≤ 0xFFE) (x : Nibble) (r : Byte) :
    ∃ t, aluPlain x r s = .next t ∧ t.Inv :=
  ⟨_, rfl, (h.advance hpc).setV x r⟩

theorem aluFlagged_inv (h : s.Inv) (hpc : s.pc.toNat ≤ 0xFFE) (x : Nibble) (r flag : Byte) :
    ∃ t, aluFlagged x r flag s = .next t ∧ t.Inv :=
  ⟨_, rfl, ((h.advance hpc).setV x r).setV vf flag⟩

theorem skipIf_inv (h : s.Inv) (hpc : s.pc.toNat ≤ 0xFFE) (c : Bool) : ∃ t, skipIf c s = .next t ∧ t.Inv :=
  ⟨_, skipIf_eq c s, h.setPc (skip_pc_le hpc c)⟩

theorem exec_ret_inv (h : s.Inv) (hpc : s.pc.toNat ≤ 0xFFE) (hsp : s.sp ≠ 0) :
    ∃ t, exec .ret s = .next t ∧ t.Inv := by
  have target : (s.stackAt (s.sp - 1)).toNat ≤ 0x1000 := h.liveEntries.stackAt_le (by omega)
  exact ⟨_, exec_ret_of_ne hsp, (h.advance hpc).pop.setPc (by omega)⟩

theorem exec_call_inv (h : s.Inv) (hpc : s.pc.toNat ≤ 0xFFE) (hroom : s.sp < s.params.stackDepth) (nnn : Addr12) :
    ∃ t, exec (.call nnn) s = .next t ∧ t.Inv := by
  have target := addrOf_le nnn
  exact ⟨_, exec_call_of_lt hroom nnn, ((h.advance hpc).push hroom (pc_add_two_le hpc)).setPc (by omega)⟩

theorem exec_ldVxKey_inv (h : s.Inv) (hpc : s.pc.toNat ≤ 0xFFE) (x : Nibble) :
    ∃ t, exec (.ldVxKey x) s = .next t ∧ t.Inv := by
  cases hscan : lowestKey s with
  | some k => rw [exec_ldVxKey_of_some hscan]; exact aluPlain_inv h hpc x _
  | none => exact ⟨s, exec_ldVxKey_of_none hscan x, h⟩

theorem exec_ldBcd_inv (h : s.Inv) (hpc : s.pc.toNat ≤ 0xFFE) (hrange : s.i.toNat + 2 ≤ 0xFFF) (x : Nibble) :
    ∃ t, exec (.ldBcd x) s = .next t ∧ t.Inv := by
  have fits : s.i.toNat + (bcdDigits (s.getV x)).length ≤ 0x1000 := Nat.succ_le_succ hrange
  exact ⟨_, exec_ldBcd_of_le hrange x, (h.advance hpc).storeBlock fits⟩

theorem exec_dumpRegs_inv (h : s.Inv) (hpc : s.pc.toNat ≤ 0xFFE) {x : Nibble} (hrange : s.i.toNat + x.toNat ≤ 0xFFF) :
    ∃ t, exec (.dumpRegs x) s = .next t ∧ t.Inv := by
  have len_fits : s.i.toNat + blockLen x ≤ 0x1000 := Nat.succ_le_succ hrange
  have bytes_fit : s.i.toNat + (s.v.toList.take (blockLen x)).length ≤ 0x1000 :=
    (Nat.add_le_add_left (List.length_take_le _ _) _).trans len_fits
  refine ⟨_, exec_dumpRegs_of_le hrange, ((h.advance hpc).storeBlock bytes_fit).bumpIndex ?_⟩
  rwa [State.storeBlock_i, State.advance_i]

theorem exec_loadRegs_inv (h : s.Inv) (hpc : s.pc.toNat ≤ 0xFFE) {x : Nibble} (hrange : s.i.toNat + x.toNat ≤ 0xFFF) :
    ∃ t, exec (.loadRegs x) s = .next t ∧ t.Inv :=
  ⟨_, exec_loadRegs_of_le hrange, ((h.advance hpc).setVs _).bumpIndex (Nat.succ_le_succ hrange)⟩

theorem exec_inv {i : Instr} (h : s.Inv) (hpc : s.pc.toNat ≤ 0xFFE) (hf : handlerFault i s = none) :
    ∃ t, exec i s = .next t ∧ t.Inv := by
  have advanced : s.advance.Inv := h.advance hpc
  cases i with
  | cls => exact ⟨_, exec_cls s, advanced.setFb _⟩
  | ret => exact exec_ret_inv h hpc (not_of_ite_eq_none hf)
  | jp nnn => exact ⟨_, exec_jp nnn s, advanced.setPc ((addrOf_le nnn).trans (by decide))⟩
  | call nnn => exact exec_call_inv h hpc (Nat.not_le.1 (not_of_ite_eq_none hf)) nnn
  | seImm x nn => exact skipIf_inv h hpc _
  | sneImm x nn => exact skipIf_inv h hpc _
  | seReg x y => exact skipIf_inv h hpc _
  | ldImm x nn => exact aluPlain_inv h hpc x _
  | addImm x nn => exact aluPlain_inv h hpc x _
  | ldReg x y => exact aluPlain_inv h hpc x _
  | orReg x y => exact aluPlain_inv h hpc x _
  | andReg x y => exact aluPlain_inv h hpc x _
  | xorReg x y => exact aluPlain_inv h hpc x _
  | addReg x y => exact aluFlagged_inv h hpc x _ _
  | subReg x y => exact aluFlagged_inv h hpc x _ _
  | shr x y => exact aluFlagged_inv h hpc x _ _
  | subn x y => exact aluFlagged_inv h hpc x _ _
  | shl x y => exact aluFlagged_inv h hpc x _ _
  | sneReg x y => exact skipIf_inv h hpc _
  | ldI nnn => exact ⟨_, exec_ldI nnn s, advanced.setI ((addrOf_le nnn).trans (by decide))⟩
  | jpV0 x nnn => exact ⟨_, exec_jpV0 x nnn s, advanced.setPc (jump_pc_le nnn _)⟩
  | rnd x nn => exact ⟨_, exec_rnd x nn s, (advanced.setV x _).nextRand⟩
  | drw x y n => exact ⟨_, exec_drw_of_le (drw_range_of_handlerFault hf) x y, (advanced.setFb _).setV vf _⟩
  | skp x => rw [exec_skp_of_le (Nat.not_lt.1 (not_of_ite_eq_none hf))]; exact skipIf_inv h hpc _
  | sknp x => rw [exec_sknp_of_le (Nat.not_lt.1 (not_of_ite_eq_none hf))]; exact skipIf_inv h hpc _
  | ldVxDt x => exact aluPlain_inv h hpc x _
  | ldVxKey x => exact exec_ldVxKey_inv h hpc x
  | ldDtVx x => exact ⟨_, exec_ldDtVx x s, advanced.setDt _⟩
  | ldStVx x => exact ⟨_, exec_ldStVx x s, advanced.setSt _⟩
  | addI x => exact ⟨_, exec_addI x s, advanced.setI (indexSum_le _ _)⟩
  | ldFont x => exact ⟨_, exec_ldFont x s, advanced.setI (glyphAddr_le h.params_wf _)⟩
  | ldBcd x => exact exec_ldBcd_inv h hpc (Nat.not_lt.1 (not_of_ite_eq_none hf)) x
  | dumpRegs x => exact exec_dumpRegs_inv h hpc (Nat.not_lt.1 (not_of_ite_eq_none hf))
  | loadRegs x => exact exec_loadRegs_inv h hpc (Nat.not_lt.1 (not_of_ite_eq_none hf))

theorem exec_keeps_inv {i : Instr} {t : State} (h : s.Inv) (hpc : s.pc.toNat ≤ 0xFFE) (hexec : exec i s = .next t) :
    t.Inv := by
  cases hf : handlerFault i s with
  | some f =>
    rw [takeFault_next ((exec_of_handlerFault hf).symm.trans hexec)]
    exact h.setFault _
  | none =>
    obtain ⟨u, hu, inv⟩ := exec_inv h hpc hf
    obtain rfl : t = u := Host.Outcome.next.inj (hexec.symm.trans hu)
    exact inv

end

/-! ### The host moves -/

/-- After reset nothing is listed, SP and I are 0, and PC is the entry point (decision D6). -/
theorem hostReset_inv {s : State} (h : s.params.wf) (qs qj ql : Bool) : (hostReset qs qj ql s).Inv := by
  have empty_mem : Memory.wf s.params [] := ⟨List.Pairwise.nil, fun _ hc => nomatch hc⟩
  have empty_stack : CallStack.wf s.params [] := ⟨List.Pairwise.nil, fun _ hc => nomatch hc⟩
  have no_entries : (hostReset qs qj ql s).LiveEntries := fun j hj => absurd hj (Nat.not_lt_zero j)
  have hi : resetI.toNat ≤ 0x1000 := by decide
  have hpc : resetPc.toNat ≤ 0x10FE := by decide
  exact ⟨h, empty_mem, empty_stack, Nat.zero_le _, no_entries, hi, hpc⟩

theorem load_of_le {bytes : List Byte} (h : bytes.length ≤ 3584) (s : State) :
    load bytes s = (.ok, s.storeBlock 0x200 bytes) := by
  rw [load, if_neg (Nat.not_lt.2 h)]

theorem load_of_gt {bytes : List Byte} (h : 3584 < bytes.length) (s : State) : load bytes s = (.rejected, s) := by
  rw [load, if_pos h]

theorem load_inv {s : State} (h : s.Inv) (bytes : List Byte) : (load bytes s).2.Inv := by
  rcases Nat.lt_or_ge 3584 bytes.length with hlen | hlen
  · rw [load_of_gt hlen]
    exact h
  · rw [load_of_le hlen]
    exact h.storeBlock (Nat.add_le_add_left hlen 0x200)

/-! ### The obligations -/

/-- Settles O16: a fault leaves everything the invariant speaks of, and each instruction's updates keep it. -/
theorem stepKeepsTheInvariant : Obligations.StepKeepsTheInvariant := by
  unfold Obligations.StepKeepsTheInvariant
  intro s t h hstep
  obtain ⟨-, ⟨-, rfl⟩ | ⟨-, -, rfl⟩ | ⟨i, ⟨-, hpc, -⟩, hexec⟩⟩ := step_cases hstep
  · exact h.setFault _
  · exact h.setFault _
  · exact exec_keeps_inv h hpc hexec

/-- Settles O17: the reset state is closed, and the invariant is decidable. -/
theorem resetStateMeetsTheInvariant : Obligations.ResetStateMeetsTheInvariant := by
  unfold Obligations.ResetStateMeetsTheInvariant
  decide

/-- Settles O18: reset makes it anew, a load stays below 0x1000, and the other moves do not touch what it speaks of. -/
theorem hostMovesKeepTheInvariant : Obligations.HostMovesKeepTheInvariant := by
  unfold Obligations.HostMovesKeepTheInvariant
  intro m s h
  cases m with
  | reset qs qj ql => exact hostReset_inv h.params_wf qs qj ql
  | load bytes => exact load_inv h bytes
  | tickDelay => exact h.setDt _
  | tickSound => exact h.setSt _
  | setKey k down => exact h.setKeys _

end Sys2Proof.Machine
end

section
/-! PROOFS. Families 0, 2, 5, 9 and E: return, call and the remaining skips
(spec/41_fam0_1_2_clear_return_jump_call.md rules R66, R68, spec/42_fam3_4_5_9_skips.md rules R71, R72,
spec/47_famE_key_skips.md rules R90, R91). -/

namespace Sys2Proof.Machine

/-! ### Call and return -/

/-- A push writes its own entry only. -/
theorem State.stackAt_push (s : State) (a : Word) (j : Nat) :
    State.stackAt { s with stack := Sparse.put s.stack s.sp a, sp := s.sp + 1 } j =
      if j = s.sp then a else s.stackAt j := by
  show (Sparse.get? (Sparse.put s.stack s.sp a) j).getD _ = _
  rw [Sparse.get?_put]
  split_ifs <;> rfl

/-- Settles O26: the pop moves SP and no entry, and the entry popped becomes PC. -/
theorem returnPopsTheNewestEntryIntoPc : Obligations.ReturnPopsTheNewestEntryIntoPc := by
  unfold Obligations.ReturnPopsTheNewestEntryIntoPc
  refine ⟨by decide, fun s hsp => ⟨_, exec_ret_of_ne (Nat.ne_of_gt hsp), rfl, rfl, fun _ => rfl, ?frame⟩⟩
  case frame => exact ((Frame.refl _ s).advance.setStack rfl _ _).setPc _

/-- What 2NNN does, with room on the stack. -/
theorem exec_call_pc_stack_frame {s : State} (hroom : s.sp < s.params.stackDepth) (nnn : Addr12) :
    ∃ t, exec (.call nnn) s = .next t ∧ t.pc.toNat = nnn.toNat ∧ t.sp = s.sp + 1 ∧
      (∀ j, t.stackAt j = if j = s.sp then s.pc + 2#16 else s.stackAt j) ∧ Frame { stack := true } s t := by
  refine ⟨_, exec_call_of_lt hroom nnn, addrOf_toNat nnn, rfl, ?entries, ?frame⟩
  case entries => exact fun j => State.stackAt_push s.advance _ j
  case frame => exact ((Frame.refl _ s).advance.setStack rfl _ _).setPc _

/-- Settles O28: the push writes the advanced PC at SP, and NNN is zero-extended into PC. -/
theorem callPushesTheNextAddressAndJumps : Obligations.CallPushesTheNextAddressAndJumps := by
  unfold Obligations.CallPushesTheNextAddressAndJumps
  exact fun nnn s => ⟨decodeWord_wordNNN_call nnn, fun hroom => exec_call_pc_stack_frame hroom nnn⟩

/-- Settles O29: the newest entry is the one the call wrote. -/
theorem returnAfterCallComesBack : Obligations.ReturnAfterCallComesBack := by
  unfold Obligations.ReturnAfterCallComesBack
  intro nnn s t u hroom hcall hsp hentries
  obtain ⟨t', hcall', -, hsp_called, hentries_called, -⟩ := exec_call_pc_stack_frame hroom nnn
  obtain rfl : t = t' := Host.Outcome.next.inj (hcall.symm.trans hcall')
  have sp_before_return : u.sp - 1 = s.sp := by omega
  have newest : u.stackAt (u.sp - 1) = s.pc + 2#16 := by
    rw [sp_before_return, hentries, hentries_called, if_pos rfl]
  exact ⟨_, exec_ret_of_ne (by omega), newest, sp_before_return⟩

/-! ### Skips -/

/-- Settles O31: 5XY0 is a skip on equality of VX and VY, 9XY0 a skip on their difference. -/
theorem skipsOnRegisterComparison : Obligations.SkipsOnRegisterComparison := by
  unfold Obligations.SkipsOnRegisterComparison
  refine fun x y s => ⟨decodeWord_wordXYN_seReg x y, decodeWord_wordXYN_sneReg x y, ?se, ?sne⟩
  case se => rw [exec_seReg]; exact skipIf_beq_pc_frame (s.getV x) (s.getV y) s
  case sne => rw [exec_sneReg]; exact skipIf_bne_pc_frame (s.getV x) (s.getV y) s

theorem skipIf_down_pc_frame (down : Bool) (s : State) : ∃ t, skipIf (down == true) s = .next t ∧
    t.pc = (if down = true then s.pc + 4#16 else s.pc + 2#16) ∧ Frame {} s t := by
  cases down with
  | true => exact skipIf_pc_frame true s
  | false => exact skipIf_pc_frame false s

theorem skipIf_up_pc_frame (down : Bool) (s : State) : ∃ t, skipIf (down == false) s = .next t ∧
    t.pc = (if down = true then s.pc + 2#16 else s.pc + 4#16) ∧ Frame {} s t := by
  cases down with
  | true => exact skipIf_pc_frame false s
  | false => exact skipIf_pc_frame true s

/-- Settles O46: a key number of at most 15 names a key, and the two are skips on its being down and up. -/
theorem keySkipsFollowTheKeyInVx : Obligations.KeySkipsFollowTheKeyInVx := by
  unfold Obligations.KeySkipsFollowTheKeyInVx
  refine fun x s => ⟨decodeWord_wordXNN_skp x, decodeWord_wordXNN_sknp x, fun hkey => ⟨?skp, ?sknp⟩⟩
  case skp => rw [exec_skp_of_le hkey]; exact skipIf_down_pc_frame _ s
  case sknp => rw [exec_sknp_of_le hkey]; exact skipIf_up_pc_frame _ s

end Sys2Proof.Machine
end

section
/-! PROOFS. Family 8: the operations with a flag (spec/44_fam8_alu.md rules R80 to R84). -/

namespace Sys2Proof.Machine

/-! ### What a result with a flag does -/

/-- The result and the flag given as numbers. -/
theorem aluFlagged_toNat_pc_frame {r flag : Byte} {m n : Nat} (hr : r.toNat = m) (hflag : flag.toNat = n) (x : Nibble)
    (s : State) : ∃ t, aluFlagged x r flag s = .next t ∧ (x ≠ vf → (t.getV x).toNat = m) ∧ (t.getV vf).toNat = n ∧
      t.pc = s.pc + 2#16 ∧ Frame { v := regs [x, vf] } s t := by
  obtain ⟨t, ht, hx, hvf, hpc, hframe⟩ := aluFlagged_getV_pc_frame x r flag s
  refine ⟨t, ht, fun hne => ?result, ?flag, hpc, hframe⟩
  case result => rw [hx hne, hr]
  case flag => rw [hvf, hflag]

/-! ### Results and flags as numbers -/

/-- The wrapped sum is below an operand exactly when the sum does not fit a byte. -/
theorem carryFlag_toNat (a b : Byte) : (carryFlag a b).toNat = if 255 < a.toNat + b.toNat then 1 else 0 := by
  have ha : a.toNat < 256 := a.isLt
  have hb : b.toNat < 256 := b.isLt
  have wraps : (a + b).toNat < a.toNat ↔ 255 < a.toNat + b.toNat := by
    rw [BitVec.toNat_add]
    omega
  rw [carryFlag, flagOf_toNat]
  simp only [decide_eq_true_eq, wraps]

theorem noBorrowFlag_toNat (a b : Byte) : (noBorrowFlag a b).toNat = if b.toNat < a.toNat then 1 else 0 := by
  rw [noBorrowFlag, flagOf_toNat]
  simp only [decide_eq_true_eq]

theorem sub_toNat (a b : Byte) : (a - b).toNat = (256 + a.toNat - b.toNat) % 256 := by
  have hb : b.toNat < 256 := b.isLt
  have borrow : 2 ^ 8 - b.toNat + a.toNat = 256 + a.toNat - b.toNat := by omega
  rw [BitVec.toNat_sub, borrow]

theorem shiftRight_toNat (a : Byte) : (a >>> 1).toNat = a.toNat / 2 := by
  rw [BitVec.toNat_ushiftRight, Nat.shiftRight_eq_div_pow]

theorem shiftRightFlag_toNat (a : Byte) : (shiftRightFlag a).toNat = a.toNat % 2 := by
  revert a
  decide

theorem shiftLeft_toNat (a : Byte) : (a <<< 1).toNat = 2 * a.toNat % 256 := by
  rw [BitVec.toNat_shiftLeft, Nat.shiftLeft_eq, Nat.mul_comm]

theorem shiftLeftFlag_toNat (a : Byte) : (shiftLeftFlag a).toNat = a.toNat / 128 := by
  revert a
  decide

/-! ### The obligations -/

/-- Settles O36: a sum of bytes wraps modulo 256, and the flag compares the wrapped sum with VX. -/
theorem addSetsVfOnUnsignedOverflow : Obligations.AddSetsVfOnUnsignedOverflow := by
  unfold Obligations.AddSetsVfOnUnsignedOverflow
  refine fun x y s => ⟨decodeWord_wordXYN_addReg x y, ?meaning⟩
  rw [exec_addReg]
  exact aluFlagged_toNat_pc_frame (BitVec.toNat_add _ _) (carryFlag_toNat _ _) x s

/-- Settles O37: a difference of bytes wraps modulo 256, and the flag is the strict comparison. -/
theorem subtractSetsVfWhenVxIsGreater : Obligations.SubtractSetsVfWhenVxIsGreater := by
  unfold Obligations.SubtractSetsVfWhenVxIsGreater
  refine fun x y s => ⟨decodeWord_wordXYN_subReg x y, ?meaning⟩
  rw [exec_subReg]
  exact aluFlagged_toNat_pc_frame (sub_toNat _ _) (noBorrowFlag_toNat _ _) x s

/-- Settles O38: a shift to the right halves, and the bit shifted out is the remainder. -/
theorem shiftRightHalvesAndSetsVfToTheLowBit : Obligations.ShiftRightHalvesAndSetsVfToTheLowBit := by
  unfold Obligations.ShiftRightHalvesAndSetsVfToTheLowBit
  refine fun x y s => ⟨decodeWord_wordXYN_shr x y, ?meaning⟩
  rw [exec_shr]
  exact aluFlagged_toNat_pc_frame (shiftRight_toNat _) (shiftRightFlag_toNat _) x s

/-- Settles O39: the subtraction of 8XY5 with the operands exchanged. -/
theorem reverseSubtractSetsVfWhenVyIsGreater : Obligations.ReverseSubtractSetsVfWhenVyIsGreater := by
  unfold Obligations.ReverseSubtractSetsVfWhenVyIsGreater
  refine fun x y s => ⟨decodeWord_wordXYN_subn x y, ?meaning⟩
  rw [exec_subn]
  exact aluFlagged_toNat_pc_frame (sub_toNat _ _) (noBorrowFlag_toNat _ _) x s

/-- Settles O40: a shift to the left doubles modulo 256, and the bit shifted out is the quotient by 128. -/
theorem shiftLeftDoublesAndSetsVfToTheHighBit : Obligations.ShiftLeftDoublesAndSetsVfToTheHighBit := by
  unfold Obligations.ShiftLeftDoublesAndSetsVfToTheHighBit
  refine fun x y s => ⟨decodeWord_wordXYN_shl x y, ?meaning⟩
  rw [exec_shl]
  exact aluFlagged_toNat_pc_frame (shiftLeft_toNat _) (shiftLeftFlag_toNat _) x s

end Sys2Proof.Machine
end

section
/-! PROOFS. Families B, C and D: jump with offset, random, draw
(spec/45_famA_B_C_index_jumpoffset_random.md rules R86, R87, spec/46_famD_draw.md rules R88, R89). -/

namespace Sys2Proof.Machine

/-! ### Jump with offset, random -/

/-- Settles O42: the sum is below 2^16, so nothing is cut off. -/
theorem jumpWithOffsetAddsV0OrVx : Obligations.JumpWithOffsetAddsV0OrVx := by
  unfold Obligations.JumpWithOffsetAddsV0OrVx
  refine fun nnn s => ⟨decodeWord_wordNNN_jpV0 nnn, _, exec_jpV0 _ nnn s, ?pc, ?frame⟩
  case pc => exact addrOf_add_zext16_toNat nnn (jumpOffset s _)
  case frame => exact (Frame.refl _ s).advance.setPc _

/-- Settles O43: the byte drawn is masked by NN, so no bit outside NN is set, and the next draw has another number. -/
theorem randomWritesAFreeByteMaskedByNn : Obligations.RandomWritesAFreeByteMaskedByNn := by
  unfold Obligations.RandomWritesAFreeByteMaskedByNn
  intro x nn s
  have written : (s.advance.setV x (Config.rand s.randDraws &&& nn)).nextRand.getV x =
      Config.rand s.randDraws &&& nn := State.getV_setV_same _ x _
  refine ⟨decodeWord_wordXNN_rnd x nn, _, exec_rnd x nn s, written, ?mask, rfl, rfl, ?frame⟩
  case mask => rw [written, BitVec.and_assoc, BitVec.and_not_self]; exact BitVec.and_zero
  case frame => exact ((Frame.refl _ s).advance.setV (regs_singleton_self x) _).nextRand rfl

/-! ### Draw -/

/-- The sprite rows read from memory cover what the sprite at that address covers. -/
theorem rowsCover_readBlock (s : State) (base x0 y0 n col row : Nat) :
    rowsCover x0 y0 (s.readBlock base n) col row = spriteCovers s base x0 y0 n col row := by
  rw [rowsCover, spriteCovers, State.length_readBlock, State.getElem?_readBlock]
  by_cases hrow : y0 ≤ row ∧ row < y0 + n
  · have in_sprite : row - y0 < n := by omega
    rw [if_pos in_sprite, Option.getD_some]
  · have uncovered : ¬ (y0 ≤ row ∧ row < y0 + n ∧ x0 ≤ col ∧ col < x0 + 8) := fun h => hrow ⟨h.1, h.2.1⟩
    rw [decide_eq_false uncovered, Bool.false_and, Bool.false_and]

/-- The sprite of DXYN at I with its corner given by VX and VY (rule R88). -/
def spriteAt (x y n : Nibble) (s : State) (col row : Nat) : Bool :=
  spriteCovers s s.i.toNat ((s.getV x).toNat % 64) ((s.getV y).toNat % 32) n.toNat col row

theorem drawing_covers (x y n : Nibble) (s : State) :
    DrawsCover (spriteAt x y n s) (s.fb, false) (drawing x y n s) := by
  have rows := drawRows_covers (spriteCol (s.getV x)) (s.readBlock s.i.toNat n.toNat) (spriteRow (s.getV y))
    (s.fb, false)
  have same_cover : rowsCover (spriteCol (s.getV x)) (spriteRow (s.getV y)) (s.readBlock s.i.toNat n.toNat) =
      spriteAt x y n s := funext₂ fun col row => rowsCover_readBlock s _ _ _ _ col row
  rwa [same_cover] at rows

theorem collisionFlag_eq_one_iff (hit : Bool) : collisionFlag hit = 1#8 ↔ hit = true := by
  cases hit <;> decide

theorem collisionFlag_eq_zero_or_one (hit : Bool) : collisionFlag hit = 0#8 ∨ collisionFlag hit = 1#8 := by
  cases hit <;> decide

/-- What DXYN does, with its range inside memory. -/
theorem exec_drw_pixel_flag_frame {n : Nibble} {s : State} (h : n = 0#4 ∨ s.i.toNat + n.toNat - 1 ≤ 0xFFF)
    (x y : Nibble) : ∃ t, exec (.drw x y n) s = .next t ∧
      (∀ col row, col < 64 → row < 32 → t.pixel col row = (s.pixel col row ^^ spriteAt x y n s col row)) ∧
      (t.getV vf = 1#8 ↔ ∃ col row, col < 64 ∧ row < 32 ∧ s.pixel col row = true ∧ spriteAt x y n s col row = true) ∧
      (t.getV vf = 0#8 ∨ t.getV vf = 1#8) ∧ t.pc = s.pc + 2#16 ∧ Frame { v := regs [vf], fb := true } s t := by
  obtain ⟨pixels, hit⟩ := drawing_covers x y n s
  refine ⟨_, exec_drw_of_le h x y, pixels, ?collision, ?flag, rfl, ?frame⟩
  case collision => rw [State.getV_setV_same, collisionFlag_eq_one_iff, hit, or_iff_right Bool.false_ne_true]; rfl
  case flag => rw [State.getV_setV_same]; exact collisionFlag_eq_zero_or_one _
  case frame => exact ((Frame.refl _ s).advance.setFb rfl _).setV (regs_singleton_self vf) _

/-- A draw that leaves its own coordinates draws the same sprite again. -/
theorem spriteAt_of_frame {x y : Nibble} (hx : x ≠ vf) (hy : y ≠ vf) {n : Nibble} {s t : State}
    (frame : Frame { v := regs [vf], fb := true } s t) : spriteAt x y n t = spriteAt x y n s := by
  have outside {r : Nibble} (hr : r ≠ vf) : regs [vf] r = false := by simpa [regs] using hr
  have same_x : t.getV x = s.getV x := frame.v x (outside hx)
  have same_y : t.getV y = s.getV y := frame.v y (outside hy)
  have same_i : t.i = s.i := frame.i rfl
  have same_mem : ∀ a, t.byteAt a = s.byteAt a := frame.mem rfl
  funext col row
  simp only [spriteAt, spriteCovers, same_x, same_y, same_i, same_mem]

/-- Settles O44: the rows that are drawn are those of the sprite at I. -/
theorem drawXorsTheSpriteAndSetsVfOnCollision : Obligations.DrawXorsTheSpriteAndSetsVfOnCollision := by
  unfold Obligations.DrawXorsTheSpriteAndSetsVfOnCollision
  exact fun x y n s => ⟨decodeWord_wordXYN_drw x y n, fun h => exec_drw_pixel_flag_frame h x y⟩

/-- Settles O45: both draws exclusive-or the same sprite into each pixel. -/
theorem drawingTwiceRestoresTheDisplay : Obligations.DrawingTwiceRestoresTheDisplay := by
  unfold Obligations.DrawingTwiceRestoresTheDisplay
  intro x y n s hx hy hrange
  obtain ⟨t, ht, first, -, -, -, frame⟩ := exec_drw_pixel_flag_frame hrange x y
  have same_i : t.i = s.i := frame.i rfl
  obtain ⟨u, hu, second, -⟩ := exec_drw_pixel_flag_frame (s := t) (by rwa [same_i]) x y
  refine ⟨t, u, ht, hu, fun col row hcol hrow => ?_⟩
  rw [second col row hcol hrow, first col row hcol hrow, spriteAt_of_frame hx hy frame, Bool.xor_assoc, Bool.xor_self,
    Bool.xor_false]

end Sys2Proof.Machine
end

section
/-! PROOFS. Family F: index add, font, BCD, register block (spec/48_famF_timers_key_index_font_bcd_block.md rules R96 to
R100). -/

namespace Sys2Proof.Machine

/-! ### Index add -/

/-- Settles O50: the sum is masked by a mask of twelve ones, which is the remainder by 4096. -/
theorem addToIndexMasksToTwelveBits : Obligations.AddToIndexMasksToTwelveBits := by
  unfold Obligations.AddToIndexMasksToTwelveBits
  refine fun x s => ⟨decodeWord_wordXNN_addI x, _, exec_addI x s, indexSum_toNat _ _, rfl, ?frame⟩
  case frame => exact (Frame.refl _ s).advance.setI rfl _

/-! ### Font -/

theorem fontByte_fontBase_add (p : Params) (k : Nat) : fontByte p (p.fontBase + k) = p.fontData[k]? := by
  rw [fontByte, if_pos (Nat.le_add_right _ _), Nat.add_sub_cancel_left]

/-- An address of the font that memory does not list reads as its font byte. -/
theorem State.byteAt_font {s : State} {k : Nat} (hk : k < 80)
    (hunlisted : Sparse.get? s.mem (s.params.fontBase + k) = none) :
    some (s.byteAt (s.params.fontBase + k)) = s.params.fontData[k]? := by
  have font : fontByte s.params (s.params.fontBase + k) = some s.params.fontData[k] := by
    rw [fontByte_fontBase_add, Vector.getElem?_eq_getElem hk]
  have read : s.byteAt (s.params.fontBase + k) = unlistedByte s.params s.epoch (s.params.fontBase + k) := by
    rw [State.byteAt, hunlisted]
  rw [read, unlistedByte, font, Option.getD_some, Vector.getElem?_eq_getElem hk]

/-- Settles O51: the glyph address does not wrap, and the five bytes after it are unlisted addresses of the font. -/
theorem fontLookupPointsIAtTheGlyph : Obligations.FontLookupPointsIAtTheGlyph := by
  unfold Obligations.FontLookupPointsIAtTheGlyph
  refine fun x s => ⟨decodeWord_wordXNN_ldFont x, fun hparams => ⟨_, exec_ldFont x s, ?glyph, ?bytes, rfl, ?frame⟩⟩
  case glyph => exact glyphAddr_toNat hparams _
  case bytes =>
    intro r hr hunlisted
    rw [State.setI_i, glyphAddr_toNat hparams, Nat.add_assoc] at hunlisted ⊢
    exact State.byteAt_font (s := s) (by omega) hunlisted
  case frame => exact (Frame.refl _ s).advance.setI rfl _

/-! ### BCD -/

theorem State.byteAt_storeBlock_bcdDigits {k : Nat} (hk : k < 3) (s : State) (base : Nat) (b : Byte) :
    (s.storeBlock base (bcdDigits b)).byteAt (base + k) = (bcdDigits b)[k] :=
  State.byteAt_storeBlock_inside hk s base

/-- Settles O52: the block that is stored is the list of the three digits. -/
theorem bcdStoresThreeDigitsAtI : Obligations.BcdStoresThreeDigitsAtI := by
  unfold Obligations.BcdStoresThreeDigitsAtI
  refine fun x s => ⟨decodeWord_wordXNN_ldBcd x, fun hrange =>
    ⟨_, exec_ldBcd_of_le hrange x, ?hundreds, ?tens, ?ones, ?others, ?pc, ?frame⟩⟩
  case hundreds =>
    have stored := State.byteAt_storeBlock_bcdDigits (k := 0) (by decide) s.advance s.i.toNat (s.getV x)
    exact (congrArg BitVec.toNat stored).trans BitVec.toNat_udiv
  case tens =>
    rw [State.byteAt_storeBlock_bcdDigits (k := 1) (by decide)]
    exact BitVec.toNat_umod.trans (congrArg (· % 10) BitVec.toNat_udiv)
  case ones =>
    rw [State.byteAt_storeBlock_bcdDigits (k := 2) (by decide)]
    exact BitVec.toNat_umod
  case others =>
    intro a ha
    have outside : a < s.i.toNat ∨ s.i.toNat + (bcdDigits (s.getV x)).length ≤ a := ha
    rw [State.byteAt_storeBlock_outside outside, State.advance_byteAt]
  case pc => rw [State.storeBlock_pc, State.advance_pc]
  case frame => exact (Frame.refl _ s).advance.storeBlock rfl _ _

/-! ### Register block -/

@[simp] theorem State.bumpIndex_pc (s : State) (len : Nat) : (s.bumpIndex len).pc = s.pc := by
  rw [State.bumpIndex_eq, State.setI_pc]

@[simp] theorem State.bumpIndex_byteAt (s : State) (len a : Nat) : (s.bumpIndex len).byteAt a = s.byteAt a := by
  rw [State.bumpIndex_eq, State.setI_byteAt]

@[simp] theorem State.bumpIndex_getV (s : State) (len : Nat) (r : Nibble) : (s.bumpIndex len).getV r = s.getV r := by
  rw [State.bumpIndex_eq, State.setI_getV]

/-- The increment does not wrap when the block lies in memory (decision D17). -/
theorem State.bumpIndex_i_toNat {s t : State} {x : Nibble} (hi : t.i = s.i) (hquirk : t.qLdst = s.qLdst)
    (hrange : s.i.toNat + x.toNat ≤ 0xFFF) :
    (t.bumpIndex (blockLen x)).i.toNat = if s.qLdst = true then s.i.toNat + x.toNat + 1 else s.i.toNat := by
  rw [State.bumpIndex_eq, State.setI_i, hi, hquirk]
  split_ifs
  · rw [BitVec.toNat_add, BitVec.toNat_ofNat, blockLen]
    omega
  · rfl

theorem length_take_blockLen (s : State) (x : Nibble) : (s.v.toList.take (blockLen x)).length = x.toNat + 1 := by
  have hx : x.toNat < 16 := x.isLt
  rw [List.length_take, Vector.length_toList, blockLen, Nat.min_eq_left hx]

/-- Settles O53: the block that is stored is V0..VX in order, and I is the only other thing that is moved. -/
theorem registerDumpStoresV0ToVxAtI : Obligations.RegisterDumpStoresV0ToVxAtI := by
  unfold Obligations.RegisterDumpStoresV0ToVxAtI
  refine fun x s => ⟨decodeWord_wordXNN_dumpRegs x, fun hrange =>
    ⟨_, exec_dumpRegs_of_le hrange, ?stored, ?others, ?index, ?pc, ?frame⟩⟩
  case stored =>
    intro r hr
    have in_block : r.toNat < (s.v.toList.take (blockLen x)).length := by
      rw [length_take_blockLen]
      omega
    rw [State.bumpIndex_byteAt, State.byteAt_storeBlock_inside in_block, List.getElem_take]
    rfl
  case others =>
    intro a ha
    have outside : a < s.i.toNat ∨ s.i.toNat + (s.v.toList.take (blockLen x)).length ≤ a := by
      rw [length_take_blockLen]
      omega
    rw [State.bumpIndex_byteAt, State.byteAt_storeBlock_outside outside, State.advance_byteAt]
  case index => exact State.bumpIndex_i_toNat (State.storeBlock_i _ _ _) (State.storeBlock_qLdst _ _ _) hrange
  case pc => rw [State.bumpIndex_pc, State.storeBlock_pc, State.advance_pc]
  case frame => exact ((Frame.refl _ s).advance.storeBlock rfl _ _).bumpIndex rfl _

/-- Settles O54: the list that is written to the registers is the block at I, and it ends at VX. -/
theorem registerLoadReadsV0ToVxFromI : Obligations.RegisterLoadReadsV0ToVxFromI := by
  unfold Obligations.RegisterLoadReadsV0ToVxFromI
  refine fun x s => ⟨decodeWord_wordXNN_loadRegs x, fun hrange =>
    ⟨_, exec_loadRegs_of_le hrange, ?loaded, ?index, ?pc, ?frame⟩⟩
  case loaded =>
    intro r hr
    have in_block : r.toNat < blockLen x := Nat.lt_succ_iff.2 hr
    rw [State.bumpIndex_getV, State.getV_setVs, State.getElem?_readBlock, if_pos in_block, Option.getD_some]
  case index => exact State.bumpIndex_i_toNat (State.setVs_i _ _) (State.setVs_qLdst _ _) hrange
  case pc => rw [State.bumpIndex_pc, State.setVs_pc, State.advance_pc]
  case frame => exact ((Frame.refl _ s).advance.setVs fun _ => regsUpTo_of_lt_blockLen).bumpIndex rfl _

end Sys2Proof.Machine
end

section
/-! PROOFS. The host's key, load and reset moves (spec/60_exceptions.md rule R123, spec/70_reset_and_hazards.md rules R127
to R130). -/

namespace Sys2Proof.Machine

/-! ### Keys -/

theorem getLsbD_key_bit (k j : Nat) (hj : j < 16) : (1#16 <<< k).getLsbD j = decide (j = k) := by
  rw [BitVec.getLsbD_shiftLeft, BitVec.getLsbD_one, decide_eq_true hj, decide_eq_true (Nat.zero_lt_succ 15),
    Bool.true_and, Bool.true_and]
  by_cases h : j < k
  · rw [decide_eq_true h, Bool.not_true, Bool.false_and, decide_eq_false (Nat.ne_of_lt h)]
  · rw [decide_eq_false h, Bool.not_false, Bool.true_and]
    exact decide_eq_decide.2 (by omega)

theorem setKey_keyDown (k : Nibble) (down : Bool) (s : State) {j : Nat} (hj : j < 16) :
    (setKey k down s).keyDown j = if j = k.toNat then down else s.keyDown j := by
  cases down with
  | true =>
    show (s.keys ||| (1#16 <<< k.toNat)).getLsbD j = _
    rw [BitVec.getLsbD_or, getLsbD_key_bit _ j hj]
    split_ifs with h <;> simp [h, State.keyDown]
  | false =>
    show (s.keys &&& ~~~(1#16 <<< k.toNat)).getLsbD j = _
    rw [BitVec.getLsbD_and, BitVec.getLsbD_not, getLsbD_key_bit _ j hj]
    split_ifs with h <;> simp [h, hj, State.keyDown]

/-- Settles O56: one bit is set or cleared by a mask of that bit, and only KEYS is replaced. -/
theorem setKeyWritesOneKeyBit : Obligations.SetKeyWritesOneKeyBit := by
  unfold Obligations.SetKeyWritesOneKeyBit
  exact fun k down s => ⟨fun _ hj => setKey_keyDown k down s hj, rfl⟩

/-! ### Load -/

/-- Settles O57: an image that fits is one block store at 0x200. -/
theorem loadCopiesTheImageOrIsRejected : Obligations.LoadCopiesTheImageOrIsRejected := by
  unfold Obligations.LoadCopiesTheImageOrIsRejected
  refine fun bytes s => ⟨fun hfits => ?copied, fun hlong => load_of_gt hlong s⟩
  rw [load_of_le hfits]
  exact ⟨rfl, State.storeBlock_pc s _ _, fun k hk => State.byteAt_storeBlock_inside hk s _,
    fun a ha => State.byteAt_storeBlock_outside ha s, (Frame.refl _ s).storeBlock rfl _ _⟩

/-- After a load that fits, the machine runs its first word once PC is at the entry point. -/
theorem runs_first_word_of_load {s : State} {hi lo : Byte} {rest : List Byte} {i : Instr} (hrun : s.fault = none)
    (hpc : s.pc = 0x0200#16) (hword : decodeWord (hi ++ lo : Word) = .ok i) :
    Runs (s.storeBlock 0x200 (hi :: lo :: rest)) i := by
  have first := State.byteAt_storeBlock_inside (bs := hi :: lo :: rest) (k := 0) (by simp) s 0x200
  have second := State.byteAt_storeBlock_inside (bs := hi :: lo :: rest) (k := 1) (by simp) s 0x200
  have pc_after : (s.storeBlock 0x200 (hi :: lo :: rest)).pc = 0x0200#16 := by rw [State.storeBlock_pc, hpc]
  have word : wordAtPc (s.storeBlock 0x200 (hi :: lo :: rest)) = hi ++ lo := by
    rw [wordAtPc, pc_after]
    exact congrArg₂ (· ++ ·) first second
  refine ⟨by rw [State.storeBlock_fault, hrun], by rw [pc_after]; decide, by rw [word, hword]⟩

/-- Settles O59: reset clears FAULT and puts PC at 0x200, where the load has stored the word. -/
theorem firstStepAfterLoadRunsTheFirstWord : Obligations.FirstStepAfterLoadRunsTheFirstWord := by
  unfold Obligations.FirstStepAfterLoadRunsTheFirstWord
  intro qs qj ql s hi lo rest i hlen hword
  have fits : (hi :: lo :: rest).length ≤ 3584 := Nat.add_le_add_right hlen 2
  rw [load_of_le fits]
  exact ⟨State.storeBlock_pc _ _ _, step_of_runs (runs_first_word_of_load rfl rfl hword)⟩

/-! ### Reset -/

theorem hostReset_byteAt_font (qs qj ql : Bool) (s : State) {k : Nat} (hk : k < 80) :
    some ((hostReset qs qj ql s).byteAt (s.params.fontBase + k)) = s.params.fontData[k]? :=
  State.byteAt_font (s := hostReset qs qj ql s) hk rfl

theorem hostReset_getV (qs qj ql : Bool) (s : State) (r : Nibble) : (hostReset qs qj ql s).getV r = 0x00#8 :=
  Vector.getElem_replicate r.isLt

theorem hostReset_pixel (qs qj ql : Bool) (s : State) (col row : Nat) : (hostReset qs qj ql s).pixel col row = false :=
  Display.pixel_clear col row

theorem hostReset_keyDown (qs qj ql : Bool) (s : State) (k : Nat) : (hostReset qs qj ql s).keyDown k = false :=
  BitVec.getLsbD_zero

/-- Settles O58: every element is the constant of State.reset but those that reset takes or keeps, and no address is
listed, so the font is read. -/
theorem hostResetLeavesTheResetValues : Obligations.HostResetLeavesTheResetValues := by
  unfold Obligations.HostResetLeavesTheResetValues
  exact fun qs qj ql s => ⟨rfl, fun _ hk => hostReset_byteAt_font qs qj ql s hk, rfl, rfl, rfl, rfl, rfl,
    hostReset_getV qs qj ql s, rfl, rfl, rfl, rfl, hostReset_pixel qs qj ql s, hostReset_keyDown qs qj ql s⟩

end Sys2Proof.Machine
end
